-- ==== Sys2Proof/Word.lean ====
section
/-!
DEFINITION. The word types (00_scope.md R7, R8): a payload byte, the 32-bit pattern `bits` of one window, the 64-bit
pattern of one value output, and the binary32 and binary64 fields.
-/
namespace Sys2Proof

/-- A payload byte, "an unsigned 8-bit value, 0 to 255" (R8). -/
abbrev Byte := BitVec 8

/-- The 32-bit unsigned word `bits` assembled from one window (R21, R34); WORD_W = 32 (R6). -/
abbrev Word := BitVec 32

/-- A 64-bit output pattern (R102); RES_W = 64 (R6). -/
abbrev Code := BitVec 64

/-- The sign bit `s = bits[31]` (R52). -/
abbrev Sign := BitVec 1

/-- The exponent field `e = bits[30:23]` (R52). -/
abbrev Expo := BitVec 8

/-- The fraction `frac = bits[22:0]` (R52). -/
abbrev Frac := BitVec 23

/-- The integer mantissa `m` (R21: 24 bits unsigned). -/
abbrev Mant := BitVec 24

end Sys2Proof
end

