-- ==== Sys2Proof/Config.lean ====
section
/-!
DEFINITION. The implementation parameters of 00_scope.md R6, fixed when an instance is built and no part of the state
(10_state.md R30). `LEN_W` and `PORT_W` are OPEN: the machine itself uses neither (it takes any length and any integer
port), and every pin-level definition takes them as arguments; the two numbers here are the spec's defaults (D3, D4).
-/
namespace Sys2Proof.Config

/-- Default of the OPEN parameter `LEN_W`, the width of `len_i` (R6, D3). -/
abbrev lenW : Nat := 8

/-- Default of the OPEN parameter `PORT_W`, the width of `port_i` (R6, D4). -/
abbrev portW : Nat := 8

/-- `NLANES`: the number of payload byte lanes at the pins (R6, D2). -/
abbrev nLanes : Nat := 12

/-- `N = 2^LEN_W - 1`, the largest payload length an instance accepts (R6, D3). -/
def maxLen (w : Nat) : Nat := 2 ^ w - 1

/-- What R6 asks of the two OPEN parameters: `LEN_W >= 4` and `PORT_W >= 1`. -/
abbrev Legal (lenW portW : Nat) : Prop := 4 ≤ lenW ∧ 1 ≤ portW

end Sys2Proof.Config
end

