-- ==== Sys2Proof/Syntax.lean ====
section
/-!
DEFINITION. The operations of 30_encoding.md R60, one constructor per row of spec/opcode_table.json, and the names of
the three result fields (10_state.md R23).
-/
namespace Sys2Proof

/-- The three result keys, in the order of GW's text (R23; index 0, 1, 2 by R27 and D9). -/
inductive FieldId where
  | energyIn
  | energyOut
  | power
deriving DecidableEq, Repr

/-- One operation of the operation map (R60). -/
inductive Instr where
  /-- `DEC.P1`: dispatch for the recognised port (R87). -/
  | decP1
  /-- `DEC.NONE`: dispatch for every other port; `p` is the port value that selected it (R55, R88). -/
  | decNone (p : Int)
  /-- `FLD.ENERGY_IN`: extraction of the first word (R89). -/
  | fldEnergyIn
  /-- `FLD.ENERGY_OUT`: extraction of the second word (R90). -/
  | fldEnergyOut
  /-- `FLD.POWER`: extraction of the third word (R91). -/
  | fldPower
  /-- `B2F.SUB`: reconstruction of a word with exponent field zero (R73). -/
  | b2fSub (s : Sign) (frac : Frac)
  /-- `B2F.NRM`: reconstruction of a word with exponent field not zero (R74). -/
  | b2fNrm (s : Sign) (e : Expo) (frac : Frac)
  /-- `ENC64`, zero case (R103). -/
  | enc64Zero (s : Sign)
  /-- `ENC64`, case `e == 0`, `frac != 0` (R105). -/
  | enc64Sub (s : Sign) (frac : Frac)
  /-- `ENC64`, case `e != 0` (R104). -/
  | enc64Nrm (s : Sign) (e : Expo) (frac : Frac)
deriving DecidableEq, Repr

/-- The four formats (R51). -/
inductive Format where
  | port
  | pay
  | w32
  | res
deriving DecidableEq, Repr

/-- The format an operation belongs to (R60, column "format"). -/
def Instr.format : Instr → Format
  | .decP1 => .port
  | .decNone _ => .port
  | .fldEnergyIn => .pay
  | .fldEnergyOut => .pay
  | .fldPower => .pay
  | .b2fSub _ _ => .w32
  | .b2fNrm _ _ _ => .w32
  | .enc64Zero _ => .res
  | .enc64Sub _ _ => .res
  | .enc64Nrm _ _ _ => .res

end Sys2Proof
end

