-- ==== Sys2Proof/WellFormed.lean ====
section
/-!
DEFINITION. What the spec asks of an operation's operands beyond their widths: the selector conditions of 30_encoding.md
R60 that the constructor's own shape does not carry.
-/
namespace Sys2Proof

/-- The selector condition of each operation holds of its operands: `DEC.NONE` is for ports other than 1 (R88),
`B2F.NRM` and the rebiasing case of `ENC64` for `e != 0` (R74, R104), the normalising case for `frac != 0` (R105). -/
def Instr.wf : Instr → Bool
  | .decP1 => true
  | .decNone p => p != 1
  | .fldEnergyIn => true
  | .fldEnergyOut => true
  | .fldPower => true
  | .b2fSub _ _ => true
  | .b2fNrm _ e _ => e != 0#8
  | .enc64Zero _ => true
  | .enc64Sub _ frac => frac != 0#23
  | .enc64Nrm _ e _ => e != 0#8

end Sys2Proof
end

