-- ==== Sys2Proof/Decode.lean ====
section
/-!
DEFINITION. From selectors and bytes to operations and back (30_encoding.md R51 to R61, R63 to R65).

The four formats are read in four places (R51): a port value, a payload field under `DEC.P1`, a window's word on its way
into `B2F`, the same word on its way into `ENC64`. Operations of different formats share bit patterns, so what is decoded
is a `Selector`, the format together with its carrier; inside a format the alternatives are exhaustive and exclusive (R61).
-/
namespace Sys2Proof

/-! ### The fields of a `W32` word (R52) -/

/-- `s = bits[31]` (R71). -/
def signOf (w : Word) : Sign := w.extractLsb' 31 1

/-- `e = bits[30:23]` (R72). -/
def expoOf (w : Word) : Expo := w.extractLsb' 23 8

/-- `frac = bits[22:0]` (R72). -/
def fracOf (w : Word) : Frac := w.extractLsb' 0 23

/-- The word with the given fields, pattern `seeeeeeeefffffffffffffffffffffff` (R52). -/
def wordOf (s : Sign) (e : Expo) (frac : Frac) : Word := s ++ e ++ frac

/-! ### Selectors and operations -/

/-- What an operation is decoded from: a format and the carrier R51 gives it. -/
inductive Selector where
  /-- Format `PORT`: the port value (R55). -/
  | port (p : Int)
  /-- Format `PAY`: the field whose window is extracted; the table gives these rows no bit pattern (R61). -/
  | pay (k : FieldId)
  /-- Format `W32`: a word on its way into `B2F` (R53). -/
  | w32 (w : Word)
  /-- Format `RES`: the word a value came from, on its way into `ENC64` (R61). -/
  | res (w : Word)
deriving DecidableEq, Repr

/-- The format of a selector. -/
def Selector.format : Selector → Format
  | .port _ => .port
  | .pay _ => .pay
  | .w32 _ => .w32
  | .res _ => .res

/-- Format `PORT`: equality with 1 and nothing else (R55). -/
def decodePort (p : Int) : Instr := if p = 1 then .decP1 else .decNone p

/-- Format `PAY`: one extraction per field (R60). -/
def decodePay : FieldId → Instr
  | .energyIn => .fldEnergyIn
  | .energyOut => .fldEnergyOut
  | .power => .fldPower

/-- Format `W32`: the arm by the exponent field (R53). -/
def decodeW32 (w : Word) : Instr :=
  if expoOf w = 0#8 then .b2fSub (signOf w) (fracOf w) else .b2fNrm (signOf w) (expoOf w) (fracOf w)

/-- Format `RES`: the three cases of `ENC64` in the table's priority order (R61). -/
def decodeRes (w : Word) : Instr :=
  if expoOf w = 0#8 then
    if fracOf w = 0#23 then .enc64Zero (signOf w) else .enc64Sub (signOf w) (fracOf w)
  else .enc64Nrm (signOf w) (expoOf w) (fracOf w)

/-- The decoder: total, never "invalid" (R63). -/
def decode : Selector → Instr
  | .port p => decodePort p
  | .pay k => decodePay k
  | .w32 w => decodeW32 w
  | .res w => decodeRes w

/-! ### From bytes -/

/-- Why a byte sequence is no selector. No format refuses a value of its carrier (R63); these say that the bytes given
are not one carrier of the format at all. -/
inductive Reject where
  /-- The format's carrier is `want` bytes long and `got` were given. -/
  | wrongLength (f : Format) (want got : Nat)
  /-- The `PAY` operations have no bit pattern (R61): they are selected by the field and `len`, never by bytes. -/
  | noBitPattern (f : Format)
deriving DecidableEq, Repr

/-- The word of four bytes, the byte of lowest index least significant (R32, R57). -/
def wordOfBytes (b0 b1 b2 b3 : Byte) : Word := b3 ++ b2 ++ b1 ++ b0

/-- The four bytes of a word, lowest index first (R35). -/
def byteOfWord (w : Word) (j : Nat) : Byte := w.extractLsb' (8 * j) 8

/-- The bytes of a `W32` or `RES` carrier as a word. -/
def readWord (f : Format) : List Byte → Except Reject Word
  | [b0, b1, b2, b3] => .ok (wordOfBytes b0 b1 b2 b3)
  | bs => .error (.wrongLength f 4 bs.length)

/-- The byte of a `PORT` carrier, unsigned, at the default `PORT_W` of 8 (R55). -/
def readPort : List Byte → Except Reject Int
  | [b] => .ok (b.toNat : Int)
  | bs => .error (.wrongLength .port 1 bs.length)

/-- A selector from bytes in index order, the format given by where the bytes stand. -/
def readSelector : Format → List Byte → Except Reject Selector
  | .port, bs => (readPort bs).map .port
  | .pay, _ => .error (.noBitPattern .pay)
  | .w32, bs => (readWord .w32 bs).map .w32
  | .res, bs => (readWord .res bs).map .res

/-- The operation that bytes select in a format: total on any bytes, rejecting by name. -/
def decodeBytes (f : Format) (bs : List Byte) : Except Reject Instr := (readSelector f bs).map decode

/-! ### The encoder -/

/-- The selector of an operation, written from the patterns of R52, R53, R55 and R61. -/
def encode : Instr → Selector
  | .decP1 => .port 1
  | .decNone p => .port p
  | .fldEnergyIn => .pay .energyIn
  | .fldEnergyOut => .pay .energyOut
  | .fldPower => .pay .power
  | .b2fSub s frac => .w32 (wordOf s 0#8 frac)
  | .b2fNrm s e frac => .w32 (wordOf s e frac)
  | .enc64Zero s => .res (wordOf s 0#8 0#23)
  | .enc64Sub s frac => .res (wordOf s 0#8 frac)
  | .enc64Nrm s e frac => .res (wordOf s e frac)

/-- The four bytes of a word in index order (R32). -/
def bytesOfWord (w : Word) : List Byte := [byteOfWord w 0, byteOfWord w 1, byteOfWord w 2, byteOfWord w 3]

/-- The bytes of a selector, where it has any: a `PAY` row has no bit pattern (R61), and a port below 0 or above
255 cannot be carried by the default eight pins (R55, D17). -/
def Selector.bytes : Selector → Option (List Byte)
  | .port p => if 0 ≤ p ∧ p < 256 then some [BitVec.ofInt 8 p] else none
  | .pay _ => none
  | .w32 w => some (bytesOfWord w)
  | .res w => some (bytesOfWord w)

/-- The bytes of an operation, where it has any. -/
def encodeBytes (i : Instr) : Option (List Byte) := (encode i).bytes

/-! ### The opcode table's words -/

/-- The selector that a word of spec/opcode_table.json stands for: an 8-bit word is a `PORT` value, a 32-bit word a
`W32` word (log 7: the `ENC64` rows have the `W32` rows' own patterns and the `FLD` rows none). -/
def tableSelector (nbits w : Nat) : Option Selector :=
  if nbits = Config.portW then (readSelector .port [BitVec.ofNat 8 w]).toOption
  else if nbits = 32 then
    (readSelector .w32 [BitVec.ofNat 8 w, BitVec.ofNat 8 (w / 256), BitVec.ofNat 8 (w / 65536),
      BitVec.ofNat 8 (w / 16777216)]).toOption
  else none

/-- The operation the decoder reads from a table word. -/
def decodeTableWord (nbits w : Nat) : Option Instr := (tableSelector nbits w).map decode

end Sys2Proof
end

