-- ==== Sys2Proof/Machine/State.lean ====
section
/-!
DEFINITION. The machine's state as plain data, and its value after reset. INVENTORY.md lists every piece.

The block itself keeps nothing (10_state.md R15): `inputs` is what the host presents, `fields` the outputs of the
invocation on it. `queue` and `unit` are the model's own (log 2, log 3, log 4).
-/
namespace Sys2Proof.Machine

/-- The payload as sparse memory (20_memory.md R31): (index, byte) cells, indices strictly rising, no cell of value
`0x00`, which is what an index without a cell reads as (R33, log 9). -/
abbrev Memory := List Host.Cell

/-- One thing for each result key (R23, R27). -/
structure PerField (α : Type) where
  energyIn : α
  energyOut : α
  power : α
deriving DecidableEq, Repr

/-- A decoded value `(s, mag)` (00_scope.md R11): a sign bit, and a magnitude that is a non-negative dyadic rational.
`+0.0` and `-0.0` differ (D8). -/
structure DecodedValue where
  s : Sign
  mag : Rat
deriving DecidableEq, Repr

/-- The named values of one field's reconstruction (10_state.md R21). -/
structure Wires where
  b0 : Byte
  b1 : Byte
  b2 : Byte
  b3 : Byte
  bits : Word
  s : Sign
  sign : Int
  e : Expo
  frac : Frac
  m : Mant
  x : Int
  f : DecodedValue
deriving DecidableEq, Repr

/-- Everything the block shows of one field: the key's value in `result` (R23), the named values behind it (R21), the
valid pin, which is the presence flag (R18, R109), and the value pins (R27). -/
structure FieldOut where
  result : Option DecodedValue
  wires : Option Wires
  valid : Bool
  value : Code
deriving DecidableEq, Repr

/-- The inputs of one invocation (R25, R26): the payload bytes or lanes, the length, the port. -/
structure Inputs where
  payload : Memory
  len : Nat
  port : Int
deriving DecidableEq, Repr

/-- What the host asks next (log 2, log 3): an invocation on new inputs (R12), or one operation evaluated by itself
(R68), for the port format an invocation on the present payload. -/
inductive Request where
  | invoke (inp : Inputs)
  | single (sel : Selector)
deriving DecidableEq, Repr

/-- The outputs of an operation evaluated alone (R68, log 4): the named values of a `B2F`, the pattern of an `ENC64`.
Before one was evaluated there is no value (R21). -/
structure UnitOut where
  recon : Option Wires
  code : Option Code
deriving DecidableEq, Repr

/-- The state of the machine. -/
structure State where
  inputs : Inputs
  queue : List Request
  fields : PerField FieldOut
  unit : UnitOut
deriving DecidableEq, Repr

/-- Faults: none. The block raises nothing (60_exceptions.md R113) and no error path may be added (R115), so the type
has no constructor and no definition can answer a fault. -/
inductive Fault where
deriving DecidableEq, Repr

/-- Refusals: every input is legal (30_encoding.md R63), so no meaning refuses. -/
inductive Refusal where
  /-- An instruction without a meaning in this model, by its mnemonic; raised by no arm and by no meaning. Safe. -/
  | notModelled (mnemonic : String)
deriving DecidableEq, Repr

/-- A field that is absent: no key, no named values, valid 0, value pins all zero (R110). -/
def FieldOut.absent : FieldOut := { result := none, wires := none, valid := false, value := 0 }

/-- The machine after reset. Nothing has a reset value in the spec (R29, R127). DESIGN CHOICE (log 5): the host has
presented an empty payload on port 0 and asked nothing; the outputs are the function of those inputs (R128). -/
def State.reset : State where
  inputs := { payload := [], len := 0, port := 0 }
  queue := []
  fields := { energyIn := .absent, energyOut := .absent, power := .absent }
  unit := { recon := none, code := none }

end Sys2Proof.Machine
end

