-- ==== Sys2Proof/Machine/Ops.lean ====
section
/-!
DEFINITION. The shared operations over the payload and the outputs.

There is no taking of an exception and no return from one: the block raises nothing and takes no interrupt
(60_exceptions.md R113, R117, R119, R120). There is no memory write: the block performs no store (20_memory.md R42).
-/
namespace Sys2Proof.Machine

/-! ### The payload as memory -/

/-- What an index without a cell reads as: `0x00` (R33, log 9). -/
def Memory.unlisted : Byte := 0

/-- The byte at an index. -/
def Memory.read : Memory → Nat → Byte
  | [], _ => Memory.unlisted
  | (i, b) :: rest, a => if a = i then b else Memory.read rest a

/-- The cells of a byte sequence whose first byte stands at index `i`. -/
def Memory.ofBytesFrom (i : Nat) : List Byte → Memory
  | [] => []
  | b :: bs => if b = Memory.unlisted then ofBytesFrom (i + 1) bs else (i, b) :: ofBytesFrom (i + 1) bs

/-- The cells of a byte sequence in index order (R8). -/
def Memory.ofBytes (bs : List Byte) : Memory := ofBytesFrom 0 bs

/-- Every index of `m` is at least `lo`, the indices rise strictly, and no cell holds what an unlisted index reads as. -/
def Memory.wfFrom (lo : Nat) : Memory → Bool
  | [] => true
  | (i, b) :: rest => decide (lo ≤ i) && b != Memory.unlisted && wfFrom (i + 1) rest

/-- The canonical form: equal payloads are equal data. -/
def Memory.wf (m : Memory) : Bool := wfFrom 0 m

/-- `PayByte(i)`: `bytes[i]` if `i < len`, else `0x00` (R33); at the pins the mask of R49. -/
def payByte (inp : Inputs) (i : Nat) : Byte := if i < inp.len then inp.payload.read i else 0

/-- `MemRead(a, 4)`: four bytes, least significant first (R34). -/
def memRead (inp : Inputs) (a : Nat) : Word :=
  wordOfBytes (payByte inp a) (payByte inp (a + 1)) (payByte inp (a + 2)) (payByte inp (a + 3))

/-! ### Presenting inputs -/

/-- The inputs of `decode(bytes, port)` at the abstract level (R25). -/
def Inputs.ofBytes (bytes : List Byte) (port : Int) : Inputs :=
  { payload := Memory.ofBytes bytes, len := bytes.length, port := port }

/-- The pin-level inputs (R26). -/
structure PinsIn (lenW portW : Nat) where
  lenI : BitVec lenW
  data : Vector Byte Config.nLanes
  portI : BitVec portW
deriving DecidableEq, Repr

/-- The map from the pins to the block's inputs (R28): a lane at index `>= len_i` is presented too and masked when
it is read (R49). DESIGN CHOICE (log 23): R28 leaves the bytes at indices 12 to `len_i - 1` to the host; this map lists no
cell for them, so they read as `0x00`. No output depends on them. -/
def Inputs.ofPins {lenW portW : Nat} (p : PinsIn lenW portW) : Inputs :=
  { payload := Memory.ofBytes p.data.toList, len := p.lenI.toNat, port := (p.portI.toNat : Int) }

/-- The inputs with another port value on the port pins. -/
def Inputs.withPort (inp : Inputs) (p : Int) : Inputs := { inp with port := p }

/-! ### One of three -/

/-- The entry of one field. -/
def PerField.get {α : Type} (t : PerField α) : FieldId → α
  | .energyIn => t.energyIn
  | .energyOut => t.energyOut
  | .power => t.power

/-- The table with one field's entry replaced. -/
def PerField.set {α : Type} (t : PerField α) (k : FieldId) (v : α) : PerField α :=
  match k with
  | .energyIn => { t with energyIn := v }
  | .energyOut => { t with energyOut := v }
  | .power => { t with power := v }

/-- The table that holds a function's values. -/
def PerField.ofFn {α : Type} (g : FieldId → α) : PerField α :=
  { energyIn := g .energyIn, energyOut := g .energyOut, power := g .power }

/-! ### Updating the state -/

/-- `result[k]`, present or not (R23). -/
def State.result (s : State) (k : FieldId) : Option DecodedValue := (s.fields.get k).result

/-- The presence flag `has_<k>`, which is the valid pin (R18, R109). -/
def State.has (s : State) (k : FieldId) : Bool := (s.fields.get k).valid

/-- The value pins `<k>_o` (R27). -/
def State.value (s : State) (k : FieldId) : Code := (s.fields.get k).value

/-- The state with the outputs of one field replaced. -/
def State.setField (s : State) (k : FieldId) (o : FieldOut) : State := { s with fields := s.fields.set k o }

/-- `result = {}`: every field absent (R86, R88). -/
def State.clearFields (s : State) : State :=
  { s with fields := { energyIn := .absent, energyOut := .absent, power := .absent } }

/-- The state with other inputs presented. -/
def State.presentInputs (s : State) (inp : Inputs) : State := { s with inputs := inp }

/-- The state with another queue of requests. -/
def State.setQueue (s : State) (q : List Request) : State := { s with queue := q }

/-- The named values of a `B2F` evaluated alone (R68). -/
def State.setRecon (s : State) (w : Wires) : State := { s with unit := { s.unit with recon := some w } }

/-- The output of an `ENC64` evaluated alone (R68). -/
def State.setCode (s : State) (c : Code) : State := { s with unit := { s.unit with code := some c } }

/-! ### Fetching what the next step evaluates -/

/-- The selector of the next operation, and the state with its request taken and its inputs presented. With nothing
asked the pins stay as they are and the invocation on them is evaluated again (R128, R132, log 22). -/
def fetch (s : State) : Selector × State :=
  match s.queue with
  | [] => (.port s.inputs.port, s)
  | .invoke inp :: q => (.port inp.port, (s.setQueue q).presentInputs inp)
  | .single (.port p) :: q => (.port p, (s.setQueue q).presentInputs (s.inputs.withPort p))
  | .single (.pay k) :: q => (.pay k, s.setQueue q)
  | .single (.w32 w) :: q => (.w32 w, s.setQueue q)
  | .single (.res w) :: q => (.res w, s.setQueue q)

end Sys2Proof.Machine
end

