-- ==== Sys2Proof/Machine/Flags.lean ====
section
/-!
DEFINITION. The three presence flags (10_state.md R18) and the gates behind them. There is no other flag (R19).
-/
namespace Sys2Proof.Machine

/-- The port value that is recognised (30_encoding.md R55). -/
abbrev recognisedPort : Int := 1

/-- The length gate of a field: `len >= 4`, `len > 4`, `len > 8`, kept as GW gives them (R89, R90, R91, R98). -/
def lenGate : FieldId → Nat → Bool
  | .energyIn, len => decide (len ≥ 4)
  | .energyOut, len => decide (len > 4)
  | .power, len => decide (len > 8)

/-- `has_<k>`: the port is 1 and the field's length gate holds (R18). -/
def hasField (k : FieldId) (inp : Inputs) : Bool := decide (inp.port = recognisedPort) && lenGate k inp.len

/-- Format `PAY`: the fields that an invocation extracts, by `port` and `len` (R60, R92). -/
def extracted (inp : Inputs) : List FieldId :=
  [FieldId.energyIn, .energyOut, .power].filter (fun k => hasField k inp)

end Sys2Proof.Machine
end

