-- ==== Sys2Proof/Machine/Operands.lean ====
section
/-!
DEFINITION. Operand assembly (30_encoding.md R57 to R59): the windows, the mantissa, the scale, the decoded value; and
the two arms of the reconstruction with all their named values (40_float_reconstruction.md R70 to R75).
-/
namespace Sys2Proof.Machine

/-- The window base of a field: 0, 4, 8 (R21, R41). -/
def windowBase : FieldId → Nat
  | .energyIn => 0
  | .energyOut => 4
  | .power => 8

/-- The effective address of byte `j` of a field's window, `4*k + j` (R100). -/
def byteAddress (k : FieldId) (j : Nat) : Nat := windowBase k + j

/-- `m * 2^x` exactly, for negative `x` the fraction `m / 2^(-x)` (R75). -/
def scale (m : Nat) : Int → Rat
  | .ofNat n => ((m * 2 ^ n : Nat) : Rat)
  | .negSucc n => mkRat m (2 ^ (n + 1))

/-- `Val(s, m, x)`: sign bit `s`, magnitude `m * 2^x` (R11, R75). -/
def val (s : Sign) (m : Nat) (x : Int) : DecodedValue := { s := s, mag := scale m x }

/-- The sign factor: +1 if `s == 0`, else -1 (R71). -/
def signFactor (s : Sign) : Int := if s = 0#1 then 1 else -1

/-- `m = frac << 1` on 24 bits (R58, R73). -/
def mantSub (frac : Frac) : Mant := (frac.setWidth 24) <<< 1

/-- `m = frac | 0x800000` on 24 bits (R58, R74). -/
def mantNrm (frac : Frac) : Mant := frac.setWidth 24 ||| 0x800000#24

/-- `x = e - 150` on integers (R59). -/
def scaleOf (e : Expo) : Int := (e.toNat : Int) - 150

/-- The named values of a word with fields `s`, `e`, `frac` and mantissa `m` (R21, R75). -/
def assemble (s : Sign) (e : Expo) (frac : Frac) (m : Mant) : Wires :=
  let w := wordOf s e frac
  { b0 := byteOfWord w 0, b1 := byteOfWord w 1, b2 := byteOfWord w 2, b3 := byteOfWord w 3
    bits := w, s := s, sign := signFactor s, e := e, frac := frac
    m := m, x := scaleOf e, f := val s m.toNat (scaleOf e) }

/-- The arm `B2F.SUB` (R73). -/
def reconSub (s : Sign) (frac : Frac) : Wires := assemble s 0#8 frac (mantSub frac)

/-- The arm `B2F.NRM` (R74). -/
def reconNrm (s : Sign) (e : Expo) (frac : Frac) : Wires := assemble s e frac (mantNrm frac)

/-- The reconstruction of a word with all its named values: the arm by `e == 0` (R72). -/
def recon (w : Word) : Wires :=
  if expoOf w = 0#8 then reconSub (signOf w) (fracOf w) else reconNrm (signOf w) (expoOf w) (fracOf w)

/-- `B2F(bits)`, GW's `bytesToFloat` after assembly (R69). -/
def b2f (w : Word) : DecodedValue := (recon w).f

/-! ### The output patterns -/

/-- `ENC64`, zero case: the sign, then zeros (R103). -/
def codeZero (s : Sign) : Code := s ++ (0#11 ++ 0#52)

/-- The index of the most significant 1 bit of a fraction (R105). -/
def msbIndex (frac : Frac) : Nat := Nat.log2 frac.toNat

/-- `ENC64`, case `e == 0`, `frac != 0`: exponent `k + 874`, the fraction without its leading 1 left-aligned in 52
bits (R105). -/
def codeSub (s : Sign) (frac : Frac) : Code :=
  let k := msbIndex frac
  s ++ (BitVec.ofNat 11 (k + 874) ++ (frac.setWidth 52 <<< (52 - k)))

/-- `ENC64`, case `e != 0`: exponent `e + 896`, the fraction in bits 51:29 (R104). -/
def codeNrm (s : Sign) (e : Expo) (frac : Frac) : Code :=
  s ++ (BitVec.ofNat 11 (e.toNat + 896) ++ (frac.setWidth 52 <<< 29))

/-- `ENC64` of the word a value came from (R102 to R105). -/
def enc64 (w : Word) : Code :=
  if expoOf w = 0#8 then
    if fracOf w = 0#23 then codeZero (signOf w) else codeSub (signOf w) (fracOf w)
  else codeNrm (signOf w) (expoOf w) (fracOf w)

/-! ### One field's outputs -/

/-- The named values behind a field: the four bytes of its window, and the reconstruction of the word they form (R21). -/
def fieldWires (k : FieldId) (inp : Inputs) : Wires :=
  { recon (memRead inp (windowBase k)) with
    b0 := payByte inp (byteAddress k 0), b1 := payByte inp (byteAddress k 1)
    b2 := payByte inp (byteAddress k 2), b3 := payByte inp (byteAddress k 3) }

/-- A field's outputs from the inputs: present under its gate, with `B2F` and `ENC64` of its window, else absent
(R89 to R91, R27, R110). -/
def fieldOut (k : FieldId) (inp : Inputs) : FieldOut :=
  if hasField k inp then
    let w := memRead inp (windowBase k)
    { result := some (b2f w), wires := some (fieldWires k inp), valid := true, value := enc64 w }
  else .absent

/-- The extraction of one field: its outputs written, nothing else (R94). -/
def State.extract (k : FieldId) (s : State) : State := s.setField k (fieldOut k s.inputs)

end Sys2Proof.Machine
end

