-- ==== Sys2Proof/Machine/Extract.lean ====
section
/-!
DEFINITION. The meanings of `FLD.ENERGY_IN`, `FLD.ENERGY_OUT` and `FLD.POWER` (41_field_extraction.md R89 to R91). An extraction is
performed "under DEC.P1 only" (opcode_table.json), so its gate holds the port test too, as its flag does (R18, log 8).
-/
namespace Sys2Proof.Machine

/-- `FLD.ENERGY_IN` (R89). -/
def execFldEnergyIn (s : State) : Host.Outcome State Fault Refusal := .next (s.extract .energyIn)

/-- `FLD.ENERGY_OUT` (R90). -/
def execFldEnergyOut (s : State) : Host.Outcome State Fault Refusal := .next (s.extract .energyOut)

/-- `FLD.POWER` (R91). -/
def execFldPower (s : State) : Host.Outcome State Fault Refusal := .next (s.extract .power)

end Sys2Proof.Machine
end

