-- ==== Sys2Proof/Machine/Output.lean ====
section
/-!
DEFINITION. The meanings of the three cases of `ENC64` (42_result_output.md R103 to R105), each evaluated alone (30_encoding.md R68).
-/
namespace Sys2Proof.Machine

/-- `ENC64`, zero case (R103). -/
def execEnc64Zero (sg : Sign) (s : State) : Host.Outcome State Fault Refusal := .next (s.setCode (codeZero sg))

/-- `ENC64`, case `e == 0`, `frac != 0` (R105). -/
def execEnc64Sub (sg : Sign) (frac : Frac) (s : State) : Host.Outcome State Fault Refusal :=
  .next (s.setCode (codeSub sg frac))

/-- `ENC64`, case `e != 0` (R104). -/
def execEnc64Nrm (sg : Sign) (e : Expo) (frac : Frac) (s : State) : Host.Outcome State Fault Refusal :=
  .next (s.setCode (codeNrm sg e frac))

end Sys2Proof.Machine
end

