-- ==== Sys2Proof/Machine/Port.lean ====
section
/-!
DEFINITION. The meanings of `DEC.P1` and `DEC.NONE` (41_field_extraction.md R87, R88).
-/
namespace Sys2Proof.Machine

/-- `DEC.P1`: `result = {}`, then the three extractions, each under its own gate (R86, R87). -/
def execDecP1 (s : State) : Host.Outcome State Fault Refusal :=
  .next (((s.clearFields.extract .energyIn).extract .energyOut).extract .power)

/-- `DEC.NONE`: `result = {}`; the payload is not read and the port value has no other effect (R88). -/
def execDecNone (_p : Int) (s : State) : Host.Outcome State Fault Refusal := .next s.clearFields

end Sys2Proof.Machine
end

