-- ==== Sys2Proof/Machine/Reconstruct.lean ====
section
/-!
DEFINITION. The meanings of `B2F.SUB` and `B2F.NRM` (40_float_reconstruction.md R73, R74), each evaluated alone (30_encoding.md R68): it
reads its operand and writes its named values, and nothing else (R69).
-/
namespace Sys2Proof.Machine

/-- `B2F.SUB` (R73). -/
def execB2fSub (sg : Sign) (frac : Frac) (s : State) : Host.Outcome State Fault Refusal :=
  .next (s.setRecon (reconSub sg frac))

/-- `B2F.NRM` (R74). -/
def execB2fNrm (sg : Sign) (e : Expo) (frac : Frac) (s : State) : Host.Outcome State Fault Refusal :=
  .next (s.setRecon (reconNrm sg e frac))

end Sys2Proof.Machine
end

