-- ==== Sys2Proof/Machine/Dispatch.lean ====
section
/-!
DEFINITION. One arm per operation (30_encoding.md R60), each a direct call of its meaning.
-/
namespace Sys2Proof.Machine

def exec (i : Instr) (s : State) : Host.Outcome State Fault Refusal :=
  match i with
  | .decP1 => Sys2Proof.Machine.execDecP1 s
  | .decNone p => Sys2Proof.Machine.execDecNone p s
  | .fldEnergyIn => Sys2Proof.Machine.execFldEnergyIn s
  | .fldEnergyOut => Sys2Proof.Machine.execFldEnergyOut s
  | .fldPower => Sys2Proof.Machine.execFldPower s
  | .b2fSub sg frac => Sys2Proof.Machine.execB2fSub sg frac s
  | .b2fNrm sg e frac => Sys2Proof.Machine.execB2fNrm sg e frac s
  | .enc64Zero sg => Sys2Proof.Machine.execEnc64Zero sg s
  | .enc64Sub sg frac => Sys2Proof.Machine.execEnc64Sub sg frac s
  | .enc64Nrm sg e frac => Sys2Proof.Machine.execEnc64Nrm sg e frac s

end Sys2Proof.Machine
end

