-- ==== Sys2Proof/Machine/Step.lean ====
section
/-!
DEFINITION. One step: the next request is taken, its operation decoded and evaluated (00_scope.md R12, 70_reset_and_hazards.md R138: one
invocation is one step, taken atomically).
-/
namespace Sys2Proof.Machine

/-- One step of the machine. -/
def step (s : State) : Host.Outcome State Fault Refusal := exec (decode (fetch s).1) (fetch s).2

/-- The state whose next step evaluates the operation of a table word: its request is put in front of the queue
(log 6); a word that stands for no operation leaves the state as it is. -/
def State.withFetchWord (s : State) (nbits w : Nat) : State :=
  match tableSelector nbits w with
  | some sel => s.setQueue (.single sel :: s.queue)
  | none => s

end Sys2Proof.Machine
end

