-- ==== Sys2Proof/Machine/Contract.lean ====
section
/-!
DEFINITION. The spec's whole-function descriptions, written on numbers and byte lists and not on the machine's wires, so
that a claim can hold the machine against them: GW's formula (40_float_reconstruction.md R75) and the IEEE-754 closed form
(R80), the contract of `decode` (41_field_extraction.md R86), the binary64 reading (42_result_output.md R102) and the
pin-level function (R112). The step uses none of these.
-/
namespace Sys2Proof.Machine

/-- A 32-bit pattern's sign bit as a number (R71). -/
def signNat (n : Nat) : Nat := n / 2 ^ 31

/-- A 32-bit pattern's exponent field as a number, 0 to 255 (R72). -/
def expoNat (n : Nat) : Nat := n / 2 ^ 23 % 256

/-- A 32-bit pattern's fraction as a number (R72). -/
def fracNat (n : Nat) : Nat := n % 2 ^ 23

/-- GW's formula `sign * m * 2^(e - 150)` on numbers, `m = 2*frac` for `e == 0` and `frac + 0x800000` else
(R73, R74, R75). -/
def gwValue (n : Nat) : DecodedValue :=
  let m : Nat := if expoNat n = 0 then 2 * fracNat n else fracNat n + 0x800000
  { s := BitVec.ofNat 1 (signNat n), mag := (m : Rat) * 2 ^ ((expoNat n : Int) - 150) }

/-- The IEEE-754 closed form, `(1 + frac/2^23) * 2^(e-127)` and, for `e == 0`, `(frac/2^23) * 2^-126` (R80). -/
def ieeeValue (n : Nat) : DecodedValue :=
  { s := BitVec.ofNat 1 (signNat n)
    mag := if expoNat n = 0 then (fracNat n : Rat) / 2 ^ 23 * 2 ^ (-126 : Int)
      else (1 + (fracNat n : Rat) / 2 ^ 23) * 2 ^ ((expoNat n : Int) - 127) }

/-- The word of the window at `a` of a byte list as a number, a missing byte counting 0 (R33, R34). -/
def listWord (bytes : List Byte) (a : Nat) : Nat :=
  (bytes.getD a 0).toNat + 256 * (bytes.getD (a + 1) 0).toNat + 65536 * (bytes.getD (a + 2) 0).toNat
    + 16777216 * (bytes.getD (a + 3) 0).toNat

/-- `decode(bytes, port)` (R86). -/
def decodeContract (bytes : List Byte) (port : Int) : PerField (Option DecodedValue) :=
  if port = 1 then
    { energyIn := if bytes.length ≥ 4 then some (gwValue (listWord bytes 0)) else none
      energyOut := if bytes.length > 4 then some (gwValue (listWord bytes 4)) else none
      power := if bytes.length > 8 then some (gwValue (listWord bytes 8)) else none }
  else { energyIn := none, energyOut := none, power := none }

/-- What a binary64 pattern stands for, where R102 says: a zero for `E == 0, F == 0`, else `(1 + F/2^52) * 2^(E-1023)`
for `1 <= E <= 2046`. R102 gives no reading of any other pattern (log 17). -/
def readBinary64 (c : Code) : Option DecodedValue :=
  let s := BitVec.ofNat 1 (c.toNat / 2 ^ 63)
  let e : Nat := c.toNat / 2 ^ 52 % 2 ^ 11
  let f : Nat := c.toNat % 2 ^ 52
  if e = 0 ∧ f = 0 then some { s := s, mag := 0 }
  else if 1 ≤ e ∧ e ≤ 2046 then some { s := s, mag := (1 + (f : Rat) / 2 ^ 52) * 2 ^ ((e : Int) - 1023) }
  else none

/-- The pin-level outputs (10_state.md R27): three valid bits and three value patterns. -/
structure PinsOut where
  valid : PerField Bool
  value : PerField Code
deriving DecidableEq, Repr

/-- The first length at which a field is present: 4, 5, 9 (R92). -/
def firstLen : FieldId → Nat
  | .energyIn => 4
  | .energyOut => 5
  | .power => 9

/-- Lane `i` of the pins after the mask of 20_memory.md R49. -/
def maskedLane {lenW portW : Nat} (p : PinsIn lenW portW) (i : Nat) : Byte :=
  if i < p.lenI.toNat then p.data.toList.getD i 0 else 0

/-- The word of one window at the pins (R112). -/
def pinWord {lenW portW : Nat} (p : PinsIn lenW portW) (k : FieldId) : Word :=
  wordOfBytes (maskedLane p (windowBase k)) (maskedLane p (windowBase k + 1)) (maskedLane p (windowBase k + 2))
    (maskedLane p (windowBase k + 3))

/-- The whole pin-level function (R112): `port_i == 1` over all `PORT_W` bits, the length compared on all `LEN_W` bits. -/
def pinFunction {lenW portW : Nat} (p : PinsIn lenW portW) : PinsOut :=
  let valid := fun k => decide (p.portI = 1#portW ∧ firstLen k ≤ p.lenI.toNat)
  { valid := .ofFn valid, value := .ofFn (fun k => if valid k then enc64 (pinWord p k) else 0) }

/-- What the machine's output pins carry in a state (R27). -/
def State.pins (s : State) : PinsOut := { valid := .ofFn s.has, value := .ofFn s.value }

end Sys2Proof.Machine
end

