-- ==== Sys2Proof/Safety.lean ====
section
/-!
DEFINITION. What counts as a good state, in the terms claims use. The outputs are a function of the present inputs at every
time (10_state.md R27, R28; 70_reset_and_hazards.md R128), and the payload is in its canonical form.
-/
namespace Sys2Proof.Machine

/-- The named values of one reconstruction fit together (10_state.md R21, 40_float_reconstruction.md R70 to R75). -/
structure WiresOk (w : Wires) : Prop where
  bytes : w.bits.toNat = w.b0.toNat + 256 * w.b1.toNat + 65536 * w.b2.toNat + 16777216 * w.b3.toNat
  pattern : w.bits.toNat = 2 ^ 31 * w.s.toNat + 2 ^ 23 * w.e.toNat + w.frac.toNat
  sign : w.sign = if w.s = 0#1 then 1 else -1
  mantissa : w.m.toNat = if w.e = 0#8 then 2 * w.frac.toNat else w.frac.toNat + 2 ^ 23
  exponent : w.x = (w.e.toNat : Int) - 150
  value : w.f = { s := w.s, mag := (w.m.toNat : Rat) * 2 ^ w.x }

/-- The word of the window at `a` of the present inputs as a number (20_memory.md R33, R34). -/
def windowNat (inp : Inputs) (a : Nat) : Nat :=
  (payByte inp a).toNat + 256 * (payByte inp (a + 1)).toNat + 65536 * (payByte inp (a + 2)).toNat
    + 16777216 * (payByte inp (a + 3)).toNat

/-- One field's outputs are right for the inputs (R18, R21, R23, R27). -/
structure FieldOk (k : FieldId) (inp : Inputs) (o : FieldOut) : Prop where
  valid : o.valid = true ↔ inp.port = 1 ∧ firstLen k ≤ inp.len
  key : o.result.isSome = o.valid
  named : o.wires.isSome = o.valid
  absent : o.valid = false → o.value = 0
  wires : ∀ w, o.wires = some w → WiresOk w ∧ w.bits.toNat = windowNat inp (windowBase k)
  shown : ∀ w, o.wires = some w → o.result = some w.f ∧ readBinary64 o.value = some w.f

/-- A request presents a payload in canonical form. -/
def Request.wf : Request → Bool
  | .invoke inp => inp.payload.wf
  | .single _ => true

/-- The invariant of the machine. -/
structure Inv (s : State) : Prop where
  payload : s.inputs.payload.wf = true
  queue : ∀ r ∈ s.queue, r.wf = true
  fields : ∀ k, FieldOk k s.inputs (s.fields.get k)
  recon : ∀ w, s.unit.recon = some w → WiresOk w
  code : ∀ c, s.unit.code = some c → (readBinary64 c).isSome = true

/-- A run of `n` steps from `s` ends in `t`, without a fault or a refusal. -/
def RunsTo (n : Nat) (s t : State) : Prop := Sys2Proof.core.run n s = .next t

end Sys2Proof.Machine
end

