-- ==== Sys2Proof/Certificates/Slice0/Obligations.lean ====
section
/-!
DEFINITION. The statements for the provers. Each docstring names the spec sentence it formalises, or says that it is the
spec's own inference or decision, or the model's choice.
-/

open Sys2Proof Sys2Proof.Machine

/-! ### Decoding and encoding -/

/-- Sanity: words written out from the patterns of 30_encoding.md sections 1 and 3 and 95_test_vectors.md decode to the
operations they stand for. -/
def Obligations.SampleWordsDecodeToTheirOperations : Prop :=
  decode (.port 1) = .decP1 ∧ decode (.port 2) = .decNone 2 ∧ decode (.port (-1)) = .decNone (-1) ∧
  decode (.pay .energyIn) = .fldEnergyIn ∧ decode (.pay .energyOut) = .fldEnergyOut ∧ decode (.pay .power) = .fldPower ∧
  decode (.w32 0b10000000000000000000000001000000#32) = .b2fSub 1 0x40 ∧
  decode (.w32 0b11000011011001100100000000000000#32) = .b2fNrm 1 134 0x664000 ∧
  decode (.w32 0b01111111100000000000000000000000#32) = .b2fNrm 0 255 0 ∧
  decode (.res 0b10000000000000000000000000000000#32) = .enc64Zero 1 ∧
  decode (.res 0b00000000000000000000000011001101#32) = .enc64Sub 0 0xCD ∧
  decode (.res 0b11000011011001100100000000000000#32) = .enc64Nrm 1 134 0x664000 ∧
  decodeBytes .w32 [0x00, 0x40, 0x66, 0xC3] = .ok (.b2fNrm 1 134 0x664000) ∧
  decodeBytes .port [0x01] = .ok .decP1 ∧ decodeBytes .port [0x81] = .ok (.decNone 129)

/-- Decoding undoes encoding for every well-formed operation, from selectors and from bytes; every operation of the word
formats has four bytes, `DEC.P1` the byte `0x01`, and `DEC.NONE` for a port of 0 to 255 the byte of that value
(30_encoding.md sections 1 to 3; the byte form of the 8-bit port is the default of D4). -/
def Obligations.DecodeUndoesEncode : Prop :=
  ∀ i : Instr, i.wf = true →
    decode (encode i) = i ∧
    (∀ bs, encodeBytes i = some bs → decodeBytes i.format bs = .ok i) ∧
    (i.format = .w32 ∨ i.format = .res → ∃ bs, bs.length = 4 ∧ encodeBytes i = some bs) ∧
    (i = .decP1 → encodeBytes i = some [0x01]) ∧
    (∀ p : Int, i = .decNone p → 0 ≤ p → p < 256 → ∃ b, encodeBytes i = some [b] ∧ (b.toNat : Int) = p)

/-- Each selector has one meaning: encoding undoes decoding, and what is decoded is well-formed. -/
def Obligations.EncodeUndoesDecode : Prop :=
  ∀ sel : Selector, encode (decode sel) = sel ∧ (decode sel).wf = true ∧ (decode sel).format = sel.format

/-- R63: "There is no illegal, reserved, hint or custom encoding in any format": every selector decodes to a
well-formed operation, every word is a legal operand, every payload, length and port a legal input. -/
def Obligations.EveryEncodingLengthAndPortIsLegal : Prop :=
  (∀ sel : Selector, (decode sel).wf = true) ∧
  (∀ b0 b1 b2 b3 : Byte, ∃ i, decodeBytes .w32 [b0, b1, b2, b3] = .ok i ∧ ∀ s, ∃ t, exec i s = .next t) ∧
  (∀ b : Byte, ∃ i, decodeBytes .port [b] = .ok i ∧ ∀ s, ∃ t, exec i s = .next t) ∧
  (∀ (s : State) (bytes : List Byte) (port : Int) (q : List Request),
    s.queue = .invoke (Inputs.ofBytes bytes port) :: q → ∃ t, step s = .next t)

/-- R72: the exponent field is bits 30..23, the fraction bits 22..0, and the arm is chosen by `e == 0`. -/
def Obligations.ExponentAndFractionFieldsChooseTheArm : Prop :=
  ∀ w : Word,
    (∀ i, i < 8 → (expoOf w).getLsbD i = w.getLsbD (23 + i)) ∧
    (∀ i, i < 23 → (fracOf w).getLsbD i = w.getLsbD i) ∧
    (expoOf w).setWidth 32 = (w >>> 23) &&& 0xFF#32 ∧
    (fracOf w).setWidth 32 = w &&& 0x7fffff#32 ∧
    decode (.w32 w) = (if expoOf w = 0#8 then .b2fSub (signOf w) (fracOf w)
      else .b2fNrm (signOf w) (expoOf w) (fracOf w)) ∧
    (recon w).e = expoOf w ∧ (recon w).frac = fracOf w

/-- R71: the sign is bit 31, +1 or -1, whatever the other 31 bits are. -/
def Obligations.SignIsTakenFromBit31 : Prop :=
  ∀ w : Word, (recon w).s = signOf w ∧ (signOf w).getLsbD 0 = w.getLsbD 31 ∧ (b2f w).s = signOf w ∧
    (recon w).sign = if w.getLsbD 31 then -1 else 1

/-- The port test is equality with 1 and nothing else, at the pins over all `PORT_W` bits (30_encoding.md section 1; the
pin clause is the spec's decision D4). -/
def Obligations.PortTestIsEqualityWithOne : Prop :=
  (∀ p : Int, decode (.port p) = if p = 1 then .decP1 else .decNone p) ∧
  (∀ (lenW portW : Nat), Config.Legal lenW portW → ∀ p : PinsIn lenW portW,
    (decode (.port (Inputs.ofPins p).port) = .decP1 ↔ p.portI.getLsbD 0 = true ∧ ∀ i, 0 < i → p.portI.getLsbD i = false))

/-- R64: an unrecognised port "selects `DEC.NONE`, whose result is the empty map", for every port value but 1. -/
def Obligations.UnrecognisedPortGivesTheEmptyMap : Prop :=
  ∀ (s : State) (inp : Inputs) (q : List Request), inp.port ≠ 1 → s.queue = .invoke inp :: q →
    decode (.port inp.port) = .decNone inp.port ∧
    ∃ t, step s = .next t ∧ ∀ k, t.result k = none

/-! ### The payload -/

/-- R33: `PayByte(i)` is `bytes[i]` below the length and `0x00` at and above it. -/
def Obligations.PayByteReadsThePayloadThenZero : Prop :=
  (∀ (bytes : List Byte) (port : Int) (i : Nat),
    payByte (Inputs.ofBytes bytes port) i = if h : i < bytes.length then bytes[i] else 0x00#8) ∧
  (∀ (inp : Inputs) (i : Nat), inp.len ≤ i → payByte inp i = 0x00#8) ∧
  (∀ (inp : Inputs) (i : Nat), i < inp.len → payByte inp i = inp.payload.read i)

/-- R34: `MemRead(a, 4)` is the OR of the four shifted bytes, which is also their sum; the block forms it at 0, 4, 8. -/
def Obligations.MemReadAssemblesLittleEndian : Prop :=
  (∀ (inp : Inputs) (a : Nat),
    memRead inp a = ((payByte inp (a + 3)).setWidth 32 <<< 24) ||| ((payByte inp (a + 2)).setWidth 32 <<< 16)
      ||| ((payByte inp (a + 1)).setWidth 32 <<< 8) ||| (payByte inp a).setWidth 32 ∧
    memRead inp a = payByte inp (a + 3) ++ payByte inp (a + 2) ++ payByte inp (a + 1) ++ payByte inp a ∧
    (memRead inp a).toNat = windowNat inp a) ∧
  (∀ k : FieldId, windowBase k = 0 ∨ windowBase k = 4 ∨ windowBase k = 8)

/-- A byte-wise view of a window: byte `j` of the payload is bits `8j+7:8j` of the word (20_memory.md section 2, rule on
byte order; the whole-window clause of the rule that byte order cannot be switched). -/
def Obligations.WordBytesArePayloadBytes : Prop :=
  ∀ (inp : Inputs) (k : FieldId) (j : Nat), j < 4 →
    (memRead inp (windowBase k)).extractLsb' (8 * j) 8 = payByte inp (byteAddress k j)

/-- At the pins a lane at index `>= len_i` is masked, whatever it carries (20_memory.md section 7; the spec's decision
D5). -/
def Obligations.LanesAtOrPastTheLengthAreMasked : Prop :=
  ∀ (lenW portW : Nat) (p : PinsIn lenW portW) (i : Nat) (h : i < 12),
    payByte (Inputs.ofPins p) i = if i < p.lenI.toNat then p.data[i] else 0x00#8

/-- The payload bytes that can influence the outputs: none for another port, none below length 4, else those below the
length and below 12 (20_memory.md section 4, the spec's inference); and nothing of the earlier state does. -/
def Obligations.OnlyTheSelectedBytesReachTheOutputs : Prop :=
  ∀ (s₁ s₂ : State) (in₁ in₂ : Inputs) (q₁ q₂ : List Request),
    s₁.queue = .invoke in₁ :: q₁ → s₂.queue = .invoke in₂ :: q₂ →
    in₁.port = in₂.port →
    (in₁.port = 1 → in₁.len = in₂.len) →
    (in₁.port = 1 → 4 ≤ in₁.len → ∀ i, i < 12 → i < in₁.len → in₁.payload.read i = in₂.payload.read i) →
    ∃ t₁ t₂, step s₁ = .next t₁ ∧ step s₂ = .next t₂ ∧ t₁.fields = t₂.fields

/-- A payload of 12 bytes or more decodes as its first 12 bytes (41_field_extraction.md section 4 and 20_memory.md
section 7, the spec's inference and decision). -/
def Obligations.LongPayloadsActAsTwelveBytes : Prop :=
  ∀ (s : State) (bytes : List Byte) (port : Int), 12 ≤ bytes.length →
    ∃ t u, step (s.setQueue [.invoke (Inputs.ofBytes bytes port)]) = .next t ∧
      step (s.setQueue [.invoke (Inputs.ofBytes (bytes.take 12) port)]) = .next u ∧ t.fields = u.fields

/-- R42: the block performs no store: no operation changes a byte of the payload, nor what else the host presents. -/
def Obligations.NoOperationWritesThePayload : Prop :=
  ∀ (i : Instr) (s : State), ∃ t, exec i s = .next t ∧ t.inputs = s.inputs ∧ t.queue = s.queue ∧
    ∀ a, t.inputs.payload.read a = s.inputs.payload.read a

/-! ### Float reconstruction -/

/-- R73: `B2F.SUB` on every operand, with its corner cases and its worked example. -/
def Obligations.SubnormalWordReconstruction : Prop :=
  (∀ (sg : Sign) (frac : Frac) (s : State),
    decode (.w32 (wordOf sg 0#8 frac)) = .b2fSub sg frac ∧
    ∃ t r, exec (.b2fSub sg frac) s = .next t ∧ t.unit.recon = some r ∧ t.fields = s.fields ∧
      r.bits = wordOf sg 0#8 frac ∧ r.s = sg ∧ r.frac = frac ∧
      r.m = frac.setWidth 24 <<< 1 ∧ r.m.toNat = 2 * frac.toNat ∧ r.m.getLsbD 0 = false ∧ r.m.toNat ≤ 0xFFFFFE ∧
      r.f = val sg r.m.toNat (0 - 150) ∧
      r.f = { s := sg, mag := (r.m.toNat : Rat) * 2 ^ (-150 : Int) } ∧
      r.f = { s := sg, mag := (frac.toNat : Rat) * 2 ^ (-149 : Int) } ∧
      (frac = 0#23 → r.f = { s := sg, mag := 0 }) ∧
      (frac = 1#23 → r.f.mag = 2 ^ (-149 : Int)) ∧
      (frac ≠ 0#23 → (2 : Rat) ^ (-149 : Int) ≤ r.f.mag) ∧
      r.f.mag ≤ (2 ^ 23 - 1) * 2 ^ (-149 : Int) ∧
      (frac = 0x7FFFFF#23 → r.f.mag = (2 ^ 23 - 1) * 2 ^ (-149 : Int) ∧
        ∀ e f', e ≠ 0#8 → r.f.mag + 2 ^ (-149 : Int) ≤ (reconNrm sg e f').f.mag)) ∧
  b2f 0x00000000 = { s := 0, mag := 0 } ∧ b2f 0x80000000 = { s := 1, mag := 0 } ∧
  decode (.w32 0x00000040) = .b2fSub 0 0x40 ∧ (recon 0x00000040).m = 0x80 ∧
  b2f 0x00000040 = { s := 0, mag := 2 ^ (-143 : Int) }

/-- R74: `B2F.NRM` on every operand, with its corner cases and its worked example. -/
def Obligations.NormalWordReconstruction : Prop :=
  (∀ (sg : Sign) (e : Expo) (frac : Frac) (s : State), e ≠ 0#8 →
    decode (.w32 (wordOf sg e frac)) = .b2fNrm sg e frac ∧
    ∃ t r, exec (.b2fNrm sg e frac) s = .next t ∧ t.unit.recon = some r ∧ t.fields = s.fields ∧
      r.bits = wordOf sg e frac ∧ r.s = sg ∧ r.e = e ∧ r.frac = frac ∧
      r.m = frac.setWidth 24 ||| 0x800000#24 ∧ r.m.toNat = frac.toNat + 0x800000 ∧ r.m.getLsbD 23 = true ∧
      0x800000 ≤ r.m.toNat ∧
      r.f = val sg r.m.toNat ((e.toNat : Int) - 150) ∧
      r.f = { s := sg, mag := (r.m.toNat : Rat) * 2 ^ ((e.toNat : Int) - 150) } ∧
      r.f = { s := sg, mag := (1 + (frac.toNat : Rat) / 2 ^ 23) * 2 ^ ((e.toNat : Int) - 127) } ∧
      r.f.mag ≠ 0 ∧ (2 : Rat) ^ (-126 : Int) ≤ r.f.mag ∧
      (e = 1#8 → frac = 0#23 → r.f.mag = 2 ^ (-126 : Int)) ∧
      (e = 254#8 → frac = 0x7FFFFF#23 → r.f.mag = (2 ^ 24 - 1) * 2 ^ (104 : Int)) ∧
      (e = 255#8 → r.f.mag = (2 ^ 23 + (frac.toNat : Rat)) * 2 ^ (105 : Int) ∧ (2 : Rat) ^ 128 ≤ r.f.mag)) ∧
  decode (.w32 0x3F800000) = .b2fNrm 0 127 0 ∧ b2f 0x3F800000 = { s := 0, mag := 1 }

/-- R75: the scale step: `sign * m * 2^(e - 150)`, `x` from -150 to 105, one formula for both arms. -/
def Obligations.ValueIsGwsFormula : Prop :=
  ∀ w : Word, b2f w = gwValue w.toNat ∧ (recon w).f = b2f w ∧
    (recon w).x = ((expoOf w).toNat : Int) - 150 ∧ -150 ≤ (recon w).x ∧ (recon w).x ≤ 105 ∧
    b2f w = val (signOf w) (recon w).m.toNat (recon w).x ∧
    b2f w = { s := signOf w, mag := ((recon w).m.toNat : Rat) * 2 ^ (recon w).x }

/-- R76: no special case for `e == 255`: a finite number in `[2^128, 2^129)`, with the rule's six words. -/
def Obligations.AllOnesExponentDecodesToAFiniteNumber : Prop :=
  (∀ w : Word, expoOf w = 255#8 →
    b2f w = val (signOf w) (0x800000#24 ||| (fracOf w).setWidth 24).toNat 105 ∧
    (b2f w).mag = (2 ^ 23 + ((fracOf w).toNat : Rat)) * 2 ^ (105 : Int) ∧
    (2 : Rat) ^ 128 ≤ (b2f w).mag ∧ (b2f w).mag < 2 ^ 129) ∧
  b2f 0x7F800000 = { s := 0, mag := 340282366920938463463374607431768211456 } ∧
  b2f 0xFF800000 = { s := 1, mag := 2 ^ 128 } ∧
  b2f 0x7FC00000 = { s := 0, mag := 12582912 * 2 ^ 105 } ∧
  b2f 0x7F800001 = { s := 0, mag := (2 ^ 23 + 1) * 2 ^ 105 } ∧
  b2f 0x7FFFFFFF = { s := 0, mag := (2 ^ 24 - 1) * 2 ^ 105 } ∧
  b2f 0xFFFFFFFF = { s := 1, mag := (2 ^ 24 - 1) * 2 ^ 105 }

/-- The closed forms of the IEEE-754 value, `(1 + frac/2^23) * 2^(e-127)` and `(frac/2^23) * 2^-126`; at `e == 255` the
first of them too (40_float_reconstruction.md section 4; the closed forms are the spec's general knowledge G2). -/
def Obligations.ValueIsTheIeeeClosedForm : Prop :=
  ∀ w : Word, b2f w = ieeeValue w.toNat

/-- Only the two zero words decode to zero, each with its own sign (40_float_reconstruction.md section 4; the sign of zero
is the spec's decision D8). -/
def Obligations.ZeroComesFromTheZeroWordsOnly : Prop :=
  (∀ w : Word, (b2f w).mag = 0 ↔ w = 0x00000000 ∨ w = 0x80000000) ∧
  b2f 0x00000000 = { s := 0, mag := 0 } ∧ b2f 0x80000000 = { s := 1, mag := 0 } ∧ b2f 0x00000000 ≠ b2f 0x80000000

/-- The magnitude is a strictly increasing function of `bits[30:0]` over the whole range (40_float_reconstruction.md
section 4, the spec's inference). -/
def Obligations.MagnitudeIncreasesWithTheLow31Bits : Prop :=
  ∀ v w : Word, (b2f v).mag < (b2f w).mag ↔ (v.extractLsb' 0 31).toNat < (w.extractLsb' 0 31).toNat

/-- Different words give different decoded values (40_float_reconstruction.md section 4, the spec's inference). -/
def Obligations.ReconstructionIsInjective : Prop :=
  ∀ v w : Word, b2f v = b2f w → v = w

/-- The ranges of the named values (40_float_reconstruction.md section 4, the spec's inference). -/
def Obligations.ReconstructionRanges : Prop :=
  ∀ w : Word,
    0 ≤ (b2f w).mag ∧ (b2f w).mag ≤ 680564693277057719623408366969033850880 ∧
    (expoOf w = 0#8 → (recon w).x = -150 ∧ (recon w).m.toNat % 2 = 0 ∧ (recon w).m.toNat ≤ 0xFFFFFE ∧
      ∃ n : Nat, n ≤ 2 ^ 23 - 1 ∧ (b2f w).mag = n * 2 ^ (-149 : Int)) ∧
    (expoOf w ≠ 0#8 → -149 ≤ (recon w).x ∧ (recon w).x ≤ 105 ∧ 0x800000 ≤ (recon w).m.toNat ∧
      (recon w).m.toNat ≤ 0xFFFFFF ∧ (2 : Rat) ^ (-126 : Int) ≤ (b2f w).mag) ∧
    (expoOf w ≠ 0#8 → expoOf w ≠ 255#8 → (b2f w).mag ≤ (2 ^ 24 - 1) * 2 ^ (104 : Int)) ∧
    (expoOf w = 255#8 → (2 : Rat) ^ 128 ≤ (b2f w).mag)

/-- The frame of the operations evaluated alone (30_encoding.md section 6; the home of their outputs is the model's, log 4):
`B2F.SUB` and `B2F.NRM` write the named values, the three `ENC64` cases the pattern, and nothing else changes. -/
def Obligations.LoneOperationsFrame : Prop :=
  (∀ (i : Instr) (s : State), i.format = .w32 →
    ∃ t, exec i s = .next t ∧ t.inputs = s.inputs ∧ t.queue = s.queue ∧ t.fields = s.fields ∧
      t.unit.code = s.unit.code ∧ ∀ a, t.inputs.payload.read a = s.inputs.payload.read a) ∧
  (∀ (i : Instr) (s : State), i.format = .res →
    ∃ t, exec i s = .next t ∧ t.inputs = s.inputs ∧ t.queue = s.queue ∧ t.fields = s.fields ∧
      t.unit.recon = s.unit.recon ∧ ∀ a, t.inputs.payload.read a = s.inputs.payload.read a)

/-! ### Field extraction -/

/-- R89: `FLD.ENERGY_IN` under `DEC.P1`: gate, value, flag, the window always complete, the worked example. -/
def Obligations.EnergyInExtraction : Prop :=
  decode (.pay .energyIn) = .fldEnergyIn ∧
  (∀ s : State, s.inputs.port = 1 → ∃ t, exec .fldEnergyIn s = .next t ∧
    (4 ≤ s.inputs.len → t.result .energyIn = some (b2f (memRead s.inputs 0)) ∧ t.has .energyIn = true ∧
      ∀ j, j < 4 → payByte s.inputs j = s.inputs.payload.read j) ∧
    (s.inputs.len < 4 → t.result .energyIn = none ∧ t.has .energyIn = false)) ∧
  memRead (Inputs.ofBytes [0x00, 0x00, 0x80, 0x3F] 1) 0 = 0x3F800000 ∧ b2f 0x3F800000 = { s := 0, mag := 1 }

/-- R90: `FLD.ENERGY_OUT` under `DEC.P1`: the strict gate, value, flag, zero completion, the worked examples. -/
def Obligations.EnergyOutExtraction : Prop :=
  decode (.pay .energyOut) = .fldEnergyOut ∧
  (∀ s : State, s.inputs.port = 1 → ∃ t, exec .fldEnergyOut s = .next t ∧
    (4 < s.inputs.len → t.result .energyOut = some (b2f (memRead s.inputs 4)) ∧ t.has .energyOut = true ∧
      (∀ i, s.inputs.len ≤ i → payByte s.inputs i = 0x00#8) ∧
      (∀ i, i < s.inputs.len → payByte s.inputs i = s.inputs.payload.read i)) ∧
    (s.inputs.len ≤ 4 → t.result .energyOut = none ∧ t.has .energyOut = false)) ∧
  memRead (Inputs.ofBytes [0x00, 0x00, 0x80, 0x3F, 0x00, 0x00, 0x00, 0x40] 1) 4 = 0x40000000 ∧
  b2f 0x40000000 = { s := 0, mag := 2 } ∧
  memRead (Inputs.ofBytes [0x00, 0x00, 0x80, 0x3F, 0x40] 1) 4 = 0x00000040 ∧
  b2f 0x00000040 = { s := 0, mag := 2 ^ (-143 : Int) }

/-- R91: `FLD.POWER` under `DEC.P1`: the strict gate, value, flag, zero completion, bytes from 12 on unused, the worked
example. -/
def Obligations.PowerExtraction : Prop :=
  decode (.pay .power) = .fldPower ∧
  (∀ s : State, s.inputs.port = 1 → ∃ t, exec .fldPower s = .next t ∧
    (8 < s.inputs.len → t.result .power = some (b2f (memRead s.inputs 8)) ∧ t.has .power = true ∧
      (∀ i, s.inputs.len ≤ i → payByte s.inputs i = 0x00#8) ∧
      (∀ i, i < s.inputs.len → payByte s.inputs i = s.inputs.payload.read i) ∧
      ∀ pay' : Memory, (∀ i, i < 12 → pay'.read i = s.inputs.payload.read i) →
        ∃ u, exec .fldPower (s.presentInputs { s.inputs with payload := pay' }) = .next u ∧
          u.result .power = t.result .power) ∧
    (s.inputs.len ≤ 8 → t.result .power = none ∧ t.has .power = false)) ∧
  memRead (Inputs.ofBytes [0x00, 0x00, 0x80, 0x3F, 0x00, 0x00, 0x00, 0x40, 0x00, 0x00, 0x80, 0xBF] 1) 8 = 0xBF800000 ∧
  b2f 0xBF800000 = { s := 1, mag := 1 }

/-- An extraction evaluated on inputs whose port is not 1 finds its field absent (log 8: "performed only under `DEC.P1`"
is read as part of the gate; the flag's condition `p1` is 10_state.md section 2's). -/
def Obligations.ExtractionOffPortOneIsAbsent : Prop :=
  ∀ (s : State) (k : FieldId), s.inputs.port ≠ 1 →
    ∃ t, exec (decodePay k) s = .next t ∧ t.result k = none ∧ t.has k = false ∧ t.value k = 0

/-- The frame of `FLD.ENERGY_IN`, `FLD.ENERGY_OUT`, `FLD.POWER`: only their own field's outputs change
(41_field_extraction.md section 4, independence). -/
def Obligations.ExtractionFrame : Prop :=
  ∀ (s : State) (k : FieldId), ∃ t, exec (decodePay k) s = .next t ∧
    (∀ j, j ≠ k → t.fields.get j = s.fields.get j) ∧
    t.inputs = s.inputs ∧ t.queue = s.queue ∧ t.unit = s.unit ∧
    ∀ a, t.inputs.payload.read a = s.inputs.payload.read a

/-- What an extraction puts on the field's pins: valid and the pattern that stands for the result, or valid 0 and all
zero (42_result_output.md section 4 and 10_state.md section 9; the spec's decisions D6, D9, D10). -/
def Obligations.ExtractionDrivesTheValuePins : Prop :=
  ∀ (s : State) (k : FieldId), ∃ t, exec (decodePay k) s = .next t ∧
    (t.has k = true ↔ s.inputs.port = 1 ∧ firstLen k ≤ s.inputs.len) ∧
    (t.has k = true → t.value k = enc64 (memRead s.inputs (windowBase k)) ∧
      readBinary64 (t.value k) = t.result k ∧ (t.result k).isSome = true) ∧
    (t.has k = false → t.value k = 0 ∧ t.result k = none)

/-- R93: a short window is completed with zero bytes: the field is what the payload with those zeros present gives. -/
def Obligations.ShortWindowsAreZeroPadded : Prop :=
  ∀ (s : State) (bytes : List Byte) (k : FieldId) (n : Nat),
    windowBase k < bytes.length → firstLen k ≤ bytes.length → bytes.length + n = windowBase k + 4 →
    ∃ t u, step (s.setQueue [.invoke (Inputs.ofBytes bytes 1)]) = .next t ∧
      step (s.setQueue [.invoke (Inputs.ofBytes (bytes ++ List.replicate n 0x00#8) 1)]) = .next u ∧
      t.fields.get k = u.fields.get k ∧ t.has k = true ∧
      t.result k = some (b2f (memRead (Inputs.ofBytes bytes 1) (windowBase k)))

/-- What a padded window can hold: the little-endian integer of its real bytes times `2^-149`, non-negative and below
`2^-125` (41_field_extraction.md section 4, the spec's inference). -/
def Obligations.PaddedWindowValue : Prop :=
  ∀ (s : State) (bytes : List Byte) (k : FieldId) (r : Nat), k ≠ .energyIn → 1 ≤ r → r ≤ 3 →
    bytes.length = windowBase k + r →
    ∃ t, step (s.setQueue [.invoke (Inputs.ofBytes bytes 1)]) = .next t ∧
      listWord bytes (windowBase k) < 2 ^ (8 * r) ∧
      t.result k = some { s := 0, mag := (listWord bytes (windowBase k) : Rat) * 2 ^ (-149 : Int) } ∧
      (listWord bytes (windowBase k) : Rat) * 2 ^ (-149 : Int) < 2 ^ (-125 : Int)

/-- The extractions are independent: any two may be evaluated in either order (41_field_extraction.md section 4, the
spec's inference). -/
def Obligations.ExtractionsCommute : Prop :=
  ∀ (s : State) (j k : FieldId), ∃ a b c, exec (decodePay j) s = .next a ∧ exec (decodePay k) s = .next b ∧
    exec (decodePay k) a = .next c ∧ exec (decodePay j) b = .next c

/-! ### Dispatch on the port -/

/-- R87: `DEC.P1`: the empty result, then the three extractions, each under its own length condition; below length 4
nothing, as `DEC.NONE`; the worked example. -/
def Obligations.DispatchForPortOne : Prop :=
  decode (.port 1) = .decP1 ∧
  (∀ s : State, s.inputs.port = 1 → ∃ t, exec .decP1 s = .next t ∧
    t.result .energyIn = (if 4 ≤ s.inputs.len then some (b2f (memRead s.inputs 0)) else none) ∧
    t.result .energyOut = (if 4 < s.inputs.len then some (b2f (memRead s.inputs 4)) else none) ∧
    t.result .power = (if 8 < s.inputs.len then some (b2f (memRead s.inputs 8)) else none) ∧
    (∀ k, t.has k = (t.result k).isSome) ∧
    (∃ a b, exec .fldEnergyIn s.clearFields = .next a ∧ exec .fldEnergyOut a = .next b ∧ exec .fldPower b = .next t) ∧
    (s.inputs.len < 4 → (∀ k, t.result k = none) ∧ ∀ p, ∃ u, exec (.decNone p) s = .next u ∧ t.fields = u.fields)) ∧
  (∀ s : State, ∃ t, step (s.setQueue [.invoke (Inputs.ofBytes [0x00, 0x00, 0x80, 0x3F] 1)]) = .next t ∧
    t.result .energyIn = some { s := 0, mag := 1 } ∧ t.result .energyOut = none ∧ t.result .power = none)

/-- R88: `DEC.NONE`: the empty result, all flags 0, the payload and the length not read; the worked example. -/
def Obligations.DispatchForEveryOtherPort : Prop :=
  (∀ (s : State) (p : Int), p ≠ 1 → decode (.port p) = .decNone p ∧
    ∃ t, exec (.decNone p) s = .next t ∧ (∀ k, t.result k = none ∧ t.has k = false) ∧
      ∀ inp, ∃ u, exec (.decNone p) (s.presentInputs inp) = .next u ∧ u.fields = t.fields) ∧
  (∀ s : State, ∃ t, step (s.setQueue [.invoke (Inputs.ofBytes [0x00, 0x00, 0x80, 0x3F] 2)]) = .next t ∧
    ∀ k, t.result k = none)

/-- The frame of `DEC.P1` and `DEC.NONE`: the inputs, the queue and the lone unit are unchanged; for an absent field
every output is the absent one (42_result_output.md section 4). -/
def Obligations.DispatchFrame : Prop :=
  ∀ (s : State) (p : Int), ∃ t, exec (decode (.port p)) s = .next t ∧
    t.inputs = s.inputs ∧ t.queue = s.queue ∧ t.unit = s.unit ∧
    (∀ a, t.inputs.payload.read a = s.inputs.payload.read a) ∧
    ∀ k, t.result k = none → t.fields.get k = FieldOut.absent

/-- Presence by port and length, and the four key sets (10_state.md sections 2 and 6; the table by length and the key sets
are the spec's inference). -/
def Obligations.PresenceByPortAndLength : Prop :=
  ∀ (s : State) (inp : Inputs) (q : List Request), s.queue = .invoke inp :: q →
    ∃ t, step s = .next t ∧
      (t.has .energyIn = true ↔ inp.port = 1 ∧ 4 ≤ inp.len) ∧
      (t.has .energyOut = true ↔ inp.port = 1 ∧ 4 < inp.len) ∧
      (t.has .power = true ↔ inp.port = 1 ∧ 8 < inp.len) ∧
      (∀ k, (t.result k).isSome = t.has k) ∧
      (∀ k, k ∈ extracted inp ↔ t.has k = true) ∧
      (extracted inp = [] ∨ extracted inp = [.energyIn] ∨ extracted inp = [.energyIn, .energyOut] ∨
        extracted inp = [.energyIn, .energyOut, .power])

/-! ### The output patterns (42_result_output.md; the representation is the spec's decision D6) -/

/-- `ENC64`, zero case: the sign, an exponent of 0, a fraction of 0. -/
def Obligations.ZeroPattern : Prop :=
  ∀ (sg : Sign) (s : State), decode (.res (wordOf sg 0#8 0#23)) = .enc64Zero sg ∧
    ∃ t c, exec (.enc64Zero sg) s = .next t ∧ t.unit.code = some c ∧
      c.extractLsb' 63 1 = sg ∧ c.extractLsb' 52 11 = 0#11 ∧ c.extractLsb' 0 52 = 0#52

/-- `ENC64`, case `e == 0`, `frac != 0`: with `k` the index of the leading 1, exponent `k + 874` and the fraction without
its leading 1 left-aligned. -/
def Obligations.SubnormalPattern : Prop :=
  ∀ (sg : Sign) (frac : Frac) (s : State), frac ≠ 0#23 → decode (.res (wordOf sg 0#8 frac)) = .enc64Sub sg frac ∧
    ∃ t c k, exec (.enc64Sub sg frac) s = .next t ∧ t.unit.code = some c ∧
      k ≤ 22 ∧ 2 ^ k ≤ frac.toNat ∧ frac.toNat < 2 ^ (k + 1) ∧
      c.extractLsb' 63 1 = sg ∧ (c.extractLsb' 52 11).toNat = k + 874 ∧
      (c.extractLsb' 0 52).toNat = (frac.toNat - 2 ^ k) * 2 ^ (52 - k)

/-- `ENC64`, case `e != 0`: exponent `e + 896`, the fraction in bits 51:29. -/
def Obligations.NormalPattern : Prop :=
  ∀ (sg : Sign) (e : Expo) (frac : Frac) (s : State), e ≠ 0#8 → decode (.res (wordOf sg e frac)) = .enc64Nrm sg e frac ∧
    ∃ t c, exec (.enc64Nrm sg e frac) s = .next t ∧ t.unit.code = some c ∧
      c.extractLsb' 63 1 = sg ∧ (c.extractLsb' 52 11).toNat = e.toNat + 896 ∧
      c.extractLsb' 29 23 = frac ∧ c.extractLsb' 0 29 = 0#29

/-- `ENC64` is exact: read as binary64, the pattern of a word stands for the decoded value of the word
(42_result_output.md section 3, the spec's inference). -/
def Obligations.PatternStandsForTheDecodedValue : Prop :=
  ∀ w : Word, readBinary64 (enc64 w) = some (b2f w)

/-- Different words have different patterns; the exponent is 0 only in a zero, else 874 to 1151; the low 29 bits are 0
(42_result_output.md section 3, the spec's inference). -/
def Obligations.PatternsAreDistinctAndNeverSpecial : Prop :=
  (∀ v w : Word, enc64 v = enc64 w → v = w) ∧
  ∀ w : Word, (enc64 w).extractLsb' 0 29 = 0#29 ∧
    (((enc64 w).extractLsb' 52 11 = 0#11 ∧ (enc64 w).extractLsb' 0 52 = 0#52) ∨
      (874 ≤ ((enc64 w).extractLsb' 52 11).toNat ∧ ((enc64 w).extractLsb' 52 11).toNat ≤ 1151))

/-! ### The machine -/

/-- A step evaluates the operation that its request, its port pins or its bytes decode to: a lone port request for every
integer port, and in its byte form too (the queue of requests is the model's, log 2 and log 3). -/
def Obligations.StepEvaluatesTheDecodedOperation : Prop :=
  ∀ s : State,
    (s.queue = [] → step s = exec (decode (.port s.inputs.port)) s) ∧
    (∀ inp q, s.queue = .invoke inp :: q →
      step s = exec (decode (.port inp.port)) { s with queue := q, inputs := inp }) ∧
    (∀ p q, s.queue = .single (.port p) :: q →
      step s = exec (decode (.port p)) { s with queue := q, inputs := { s.inputs with port := p } }) ∧
    (∀ bs p i q, readSelector .port bs = .ok (.port p) → decodeBytes .port bs = .ok i →
      s.queue = .single (.port p) :: q →
      step s = exec i { s with queue := q, inputs := { s.inputs with port := p } }) ∧
    (∀ k q, s.queue = .single (.pay k) :: q → step s = exec (decodePay k) { s with queue := q }) ∧
    (∀ f bs sel i q, f = .w32 ∨ f = .res → readSelector f bs = .ok sel → decodeBytes f bs = .ok i →
      s.queue = .single sel :: q → step s = exec i { s with queue := q })

/-- The next step after a table word is placed is exec of the operation the word decodes to: for a 32-bit word at the very
state the word was placed in, for an 8-bit word at that state with the port pins carrying the word's low byte, the word's
own value below 256, and nothing else changed. Every word of these widths decodes, and no word of another width does (the
model's form, log 6 and log 7). -/
def Obligations.PlacedTableWordIsEvaluatedNext : Prop :=
  ∀ (s : State) (nbits w : Nat),
    ((decodeTableWord nbits w).isSome = true ↔ nbits = 8 ∨ nbits = 32) ∧
    ∀ i, decodeTableWord nbits w = some i →
      (nbits = 32 → step (s.withFetchWord nbits w) = exec i s) ∧
      (nbits = 8 → step (s.withFetchWord nbits w)
        = exec i { s with inputs := s.inputs.withPort ((w % 256 : Nat) : Int) })

/-- R113: "the step function of the block returns a result for every input; it has no fault outcome and no refusal
outcome". -/
def Obligations.EveryStepAnswersANextState : Prop :=
  (∀ s : State, ∃ t, step s = .next t) ∧ ∀ (i : Instr) (s : State), ∃ t, exec i s = .next t

/-- The values of the state after reset: the model's choice of the inputs (log 5), the outputs as the function of them
(70_reset_and_hazards.md section 1, the spec's decision D12). -/
def Obligations.ResetState : Prop :=
  State.reset.inputs = { payload := [], len := 0, port := 0 } ∧ State.reset.queue = [] ∧
  (∀ k, State.reset.fields.get k = fieldOut k State.reset.inputs ∧ State.reset.result k = none ∧
    State.reset.has k = false ∧ State.reset.value k = 0) ∧
  State.reset.unit.recon = none ∧ State.reset.unit.code = none

/-- The state after reset meets the invariant. -/
def Obligations.ResetMeetsTheInvariant : Prop := Inv State.reset

/-- Every step keeps the invariant: the payload stays in canonical form, the outputs stay right for the inputs, the named
values fit together (10_state.md sections 4 and 9, 70_reset_and_hazards.md section 1). -/
def Obligations.StepKeepsTheInvariant : Prop :=
  ∀ s t : State, Inv s → step s = .next t → Inv t

/-- In a good state no value pin shows an infinity, a NaN or a subnormal, and a valid one stands for the result
(42_result_output.md sections 3 and 4, the spec's inference). -/
def Obligations.GoodStatesShowOrdinaryNumbers : Prop :=
  ∀ (s : State) (k : FieldId), Inv s →
    ((s.value k).extractLsb' 52 11).toNat ≠ 2047 ∧
    ((s.value k).extractLsb' 52 11 = 0#11 → (s.value k).extractLsb' 0 52 = 0#52) ∧
    (s.has k = true → readBinary64 (s.value k) = s.result k ∧ (s.result k).isSome = true) ∧
    (s.has k = false → s.value k = 0 ∧ s.result k = none)

/-- R86: an invocation from any state answers the result of `decode(bytes, port)`, as GW's policy and formula give it. -/
def Obligations.InvocationMeetsTheDecodeContract : Prop :=
  ∀ (s : State) (bytes : List Byte) (port : Int) (q : List Request),
    s.queue = .invoke (Inputs.ofBytes bytes port) :: q →
    ∃ t, step s = .next t ∧ PerField.ofFn t.result = decodeContract bytes port ∧ t.queue = q

/-- The machine's pins are the whole pin-level function, for every width of the length and the port
(42_result_output.md section 4; the spec's decisions D1, D2, D5, D6, D9, D10). -/
def Obligations.InvocationMeetsThePinFunction : Prop :=
  ∀ (lenW portW : Nat), Config.Legal lenW portW → ∀ (p : PinsIn lenW portW) (s : State) (q : List Request),
    s.queue = .invoke (Inputs.ofPins p) :: q → ∃ t, step s = .next t ∧ t.pins = pinFunction p

/-- The pin level refines the abstract level: a payload that agrees with the lanes below the length gives the same
outputs, whatever its bytes from index 12 on (10_state.md section 9, the spec's decision). -/
def Obligations.PinLevelRefinesTheAbstractLevel : Prop :=
  ∀ (lenW portW : Nat), Config.Legal lenW portW → ∀ (p : PinsIn lenW portW) (bytes : List Byte) (s : State),
    bytes.length = p.lenI.toNat →
    (∀ (i : Nat) (h : i < 12), i < p.lenI.toNat → bytes.getD i 0 = p.data[i]) →
    ∃ t u, step (s.setQueue [.invoke (Inputs.ofPins p)]) = .next t ∧
      step (s.setQueue [.invoke (Inputs.ofBytes bytes (p.portI.toNat : Int))]) = .next u ∧ t.fields = u.fields

/-- Every invocation that pins of the given widths can carry is presented by some pins, with the same outputs: lengths up
to `N = 2^LEN_W - 1`, ports from 0 to `2^PORT_W - 1` (00_scope.md section 3, 10_state.md section 9; decisions D2 to D4). -/
def Obligations.PresentableInvocationsHavePins : Prop :=
  ∀ (lenW portW : Nat), Config.Legal lenW portW → ∀ (bytes : List Byte) (port : Int) (s : State),
    bytes.length ≤ Config.maxLen lenW → 0 ≤ port → port < 2 ^ portW →
    ∃ (p : PinsIn lenW portW) (t u : State), p.lenI.toNat = bytes.length ∧ (p.portI.toNat : Int) = port ∧
      step (s.setQueue [.invoke (Inputs.ofPins p)]) = .next t ∧
      step (s.setQueue [.invoke (Inputs.ofBytes bytes port)]) = .next u ∧ t.fields = u.fields

/-- R95: "the result is produced fresh on each call": a key of an earlier result that is not produced now is absent
now. -/
def Obligations.ResultIsProducedFresh : Prop :=
  ∀ (s : State) (bytes : List Byte) (port : Int) (q : List Request) (k : FieldId),
    s.queue = .invoke (Inputs.ofBytes bytes port) :: q → (s.result k).isSome = true →
    ¬ (port = 1 ∧ firstLen k ≤ bytes.length) → ∃ t, step s = .next t ∧ t.result k = none

/-- R24: the same inputs yield the same result, whatever invocations come in between (and whatever else is asked). -/
def Obligations.DecodeIsIdempotent : Prop :=
  ∀ (s : State) (bytes : List Byte) (port : Int) (between : List Request),
    ∃ t u, RunsTo 1 (s.setQueue (.invoke (Inputs.ofBytes bytes port) :: between
        ++ [.invoke (Inputs.ofBytes bytes port)])) t ∧
      RunsTo (between.length + 2) (s.setQueue (.invoke (Inputs.ofBytes bytes port) :: between
        ++ [.invoke (Inputs.ofBytes bytes port)])) u ∧
      t.fields = u.fields ∧ ∀ k, t.result k = u.result k

/-- A run answers every request it is asked, one a step, and stops at none (10_state.md section 1 and
70_reset_and_hazards.md section 3; that requests are a list is the spec's decision D16). -/
def Obligations.RunsAnswerEveryRequest : Prop :=
  ∀ (s : State) (asked rest : List Request), ∃ t, RunsTo asked.length (s.setQueue (asked ++ rest)) t ∧ t.queue = rest

/-- While nothing is asked and the pins stay as they are, a good state stays as it is (70_reset_and_hazards.md sections 1
and 3: the outputs are held as long as the inputs are; log 22): the results and pins are unchanged by a step. -/
def Obligations.OutputsHoldWhileInputsDo : Prop :=
  ∀ s : State, Inv s → s.queue = [] →
    ∃ t, step s = .next t ∧ t.inputs = s.inputs ∧ t.queue = [] ∧ t.unit = s.unit ∧ t.pins = s.pins ∧
      ∀ k, t.result k = s.result k

/-- GW's own worked examples S2 to S5 (95_test_vectors.md section 1), each one step from the state after reset. -/
def Obligations.WorkedExamplesOfTheSource : Prop :=
  ∃ t₂ t₃ t₄ t₅,
    step (State.reset.setQueue [.invoke (Inputs.ofBytes [] 1)]) = .next t₂ ∧
    step (State.reset.setQueue [.invoke (Inputs.ofBytes [0x00, 0x00, 0x80, 0x3F] 1)]) = .next t₃ ∧
    step (State.reset.setQueue [.invoke (Inputs.ofBytes [0x00, 0x00, 0x80, 0x3F, 0x00, 0x00, 0x00, 0x40] 1)]) = .next t₄ ∧
    step (State.reset.setQueue [.invoke (Inputs.ofBytes [0x00, 0x00, 0x80, 0x3F] 2)]) = .next t₅ ∧
    PerField.ofFn t₂.result = { energyIn := none, energyOut := none, power := none } ∧
    PerField.ofFn t₃.result = { energyIn := some { s := 0, mag := 1 }, energyOut := none, power := none } ∧
    PerField.ofFn t₄.result
      = { energyIn := some { s := 0, mag := 1 }, energyOut := some { s := 0, mag := 2 }, power := none } ∧
    PerField.ofFn t₅.result = { energyIn := none, energyOut := none, power := none }
end

