-- ==== Sys2Proof/Laws/Fields.lean ====
section
/-!
SUPPORT. The fields of a 32-bit word as numbers, taking a word apart and putting it together (30_encoding.md R52, R57).
-/
namespace Sys2Proof

variable (w : Word) (s : Sign) (e : Expo) (frac : Frac)

theorem signOf_toNat : (signOf w).toNat = w.toNat / 2 ^ 31 := by
  have := w.isLt
  simp [signOf, BitVec.extractLsb'_toNat, Nat.shiftRight_eq_div_pow]
  omega

theorem expoOf_toNat : (expoOf w).toNat = w.toNat / 2 ^ 23 % 256 := by
  simp [expoOf, BitVec.extractLsb'_toNat, Nat.shiftRight_eq_div_pow]

theorem fracOf_toNat : (fracOf w).toNat = w.toNat % 2 ^ 23 := by
  simp [fracOf, BitVec.extractLsb'_toNat]

theorem wordOf_toNat : (wordOf s e frac).toNat = 2 ^ 31 * s.toNat + 2 ^ 23 * e.toNat + frac.toNat := by
  have hs := s.isLt; have he := e.isLt; have hf := frac.isLt
  simp only [wordOf, BitVec.toNat_append]
  rw [Nat.shiftLeft_eq, Nat.shiftLeft_eq, ← Nat.shiftLeft_eq, ← Nat.shiftLeft_eq, ← Nat.shiftLeft_add_eq_or_of_lt he,
    ← Nat.shiftLeft_add_eq_or_of_lt hf, Nat.shiftLeft_eq, Nat.shiftLeft_eq]
  ring

@[simp] theorem signOf_wordOf : signOf (wordOf s e frac) = s := by
  have hs := s.isLt; have he := e.isLt; have hf := frac.isLt
  apply BitVec.eq_of_toNat_eq
  rw [signOf_toNat, wordOf_toNat]
  omega

@[simp] theorem expoOf_wordOf : expoOf (wordOf s e frac) = e := by
  have hs := s.isLt; have he := e.isLt; have hf := frac.isLt
  apply BitVec.eq_of_toNat_eq
  rw [expoOf_toNat, wordOf_toNat]
  omega

@[simp] theorem fracOf_wordOf : fracOf (wordOf s e frac) = frac := by
  have hs := s.isLt; have he := e.isLt; have hf := frac.isLt
  apply BitVec.eq_of_toNat_eq
  rw [fracOf_toNat, wordOf_toNat]
  omega

@[simp] theorem wordOf_fields : wordOf (signOf w) (expoOf w) (fracOf w) = w := by
  have hw := w.isLt
  apply BitVec.eq_of_toNat_eq
  rw [wordOf_toNat, signOf_toNat, expoOf_toNat, fracOf_toNat]
  omega

theorem wordOfBytes_toNat (b0 b1 b2 b3 : Byte) : (wordOfBytes b0 b1 b2 b3).toNat
    = b0.toNat + 256 * b1.toNat + 65536 * b2.toNat + 16777216 * b3.toNat := by
  have h0 := b0.isLt; have h1 := b1.isLt; have h2 := b2.isLt
  simp only [wordOfBytes, BitVec.toNat_append]
  rw [← Nat.shiftLeft_add_eq_or_of_lt h2, ← Nat.shiftLeft_add_eq_or_of_lt h1, ← Nat.shiftLeft_add_eq_or_of_lt h0,
    Nat.shiftLeft_eq, Nat.shiftLeft_eq, Nat.shiftLeft_eq]
  ring

theorem byteOfWord_toNat (j : Nat) : (byteOfWord w j).toNat = w.toNat / 2 ^ (8 * j) % 256 := by
  simp [byteOfWord, BitVec.extractLsb'_toNat, Nat.shiftRight_eq_div_pow]

end Sys2Proof
end

