-- ==== Sys2Proof/Laws/Memory.lean ====
section
/-!
SUPPORT. The payload memory: what a read after presenting bytes gives, and that presenting keeps the canonical form.
There is no write (20_memory.md R42).
-/
namespace Sys2Proof.Machine

theorem Memory.wfFrom_mono {lo hi : Nat} (h : lo ≤ hi) {m : Memory} (hm : Memory.wfFrom hi m = true) :
    Memory.wfFrom lo m = true := by
  cases m with
  | nil => rfl
  | cons c rest =>
    simp only [Memory.wfFrom, Bool.and_eq_true, decide_eq_true_eq] at hm ⊢
    exact ⟨⟨h.trans hm.1.1, hm.1.2⟩, hm.2⟩

theorem Memory.ofBytesFrom_wfFrom (i : Nat) (bs : List Byte) : Memory.wfFrom i (Memory.ofBytesFrom i bs) = true := by
  induction bs generalizing i with
  | nil => rfl
  | cons b bs ih =>
    by_cases hb : b = Memory.unlisted
    · simpa [Memory.ofBytesFrom, hb] using Memory.wfFrom_mono (Nat.le_succ i) (ih (i + 1))
    · simp [Memory.ofBytesFrom, Memory.wfFrom, hb, ih (i + 1)]

/-- Presenting bytes gives a payload in canonical form. -/
theorem Memory.ofBytes_wf (bs : List Byte) : (Memory.ofBytes bs).wf = true := Memory.ofBytesFrom_wfFrom 0 bs

theorem Memory.read_ofBytesFrom (i a : Nat) (bs : List Byte) :
    (Memory.ofBytesFrom i bs).read a = if i ≤ a then bs.getD (a - i) 0 else 0 := by
  induction bs generalizing i with
  | nil => simp [Memory.ofBytesFrom, Memory.read, Memory.unlisted]
  | cons b bs ih =>
    have tail : a ≠ i → (Memory.ofBytesFrom (i + 1) bs).read a = if i ≤ a then (b :: bs).getD (a - i) 0 else 0 := by
      intro hne
      rw [ih (i + 1)]
      by_cases h : i ≤ a
      · obtain ⟨d, rfl⟩ : ∃ d, a = i + 1 + d := ⟨a - (i + 1), by omega⟩
        have e1 : i + 1 + d - i = d + 1 := by omega
        have e2 : i + 1 + d - (i + 1) = d := by omega
        simp [e1, e2, show i ≤ i + 1 + d by omega]
      · simp [h, show ¬ i + 1 ≤ a by omega]
    by_cases hb : b = Memory.unlisted
    · by_cases hne : a = i
      · subst hne
        simp [Memory.ofBytesFrom, hb, ih, Memory.unlisted]
      · simpa [Memory.ofBytesFrom, hb] using tail hne
    · by_cases hne : a = i
      · subst hne
        simp [Memory.ofBytesFrom, hb, Memory.read]
      · simpa [Memory.ofBytesFrom, hb, Memory.read, hne] using tail hne

/-- A read of a presented byte sequence gives its byte, and zero past its end. -/
theorem Memory.read_ofBytes (bs : List Byte) (a : Nat) : (Memory.ofBytes bs).read a = bs.getD a 0 := by
  simp [Memory.ofBytes, Memory.read_ofBytesFrom]

end Sys2Proof.Machine
end

