-- ==== Sys2Proof/Laws/PerInstr.lean ====
section
/-!
SUPPORT. Statements for all operations, one lemma per constructor.
-/

/-- An operation's selector stands in the operation's own format (30_encoding.md R60). -/
def Sys2Proof.Laws.FormatOfEncoding.Statement (i : Sys2Proof.Instr) : Prop := (Sys2Proof.encode i).format = i.format

namespace Sys2Proof.Laws.FormatOfEncoding

theorem decP1 : Statement .decP1 := rfl
theorem decNone (p : Int) : Statement (.decNone p) := rfl
theorem fldEnergyIn : Statement .fldEnergyIn := rfl
theorem fldEnergyOut : Statement .fldEnergyOut := rfl
theorem fldPower : Statement .fldPower := rfl
theorem b2fSub (s : Sign) (frac : Frac) : Statement (.b2fSub s frac) := rfl
theorem b2fNrm (s : Sign) (e : Expo) (frac : Frac) : Statement (.b2fNrm s e frac) := rfl
theorem enc64Zero (s : Sign) : Statement (.enc64Zero s) := rfl
theorem enc64Sub (s : Sign) (frac : Frac) : Statement (.enc64Sub s frac) := rfl
theorem enc64Nrm (s : Sign) (e : Expo) (frac : Frac) : Statement (.enc64Nrm s e frac) := rfl

end Sys2Proof.Laws.FormatOfEncoding
end

