-- ==== Sys2Proof/Laws/State.lean ====
section
/-!
SUPPORT. One lemma per field per update of the state, so that no later proof unfolds a record update.
-/
namespace Sys2Proof.Machine

section PerFieldLaws
variable {α : Type} (t : PerField α)

@[simp] theorem PerField.get_set_same (k : FieldId) (v : α) : (t.set k v).get k = v := by cases k <;> rfl

theorem PerField.get_set_ne {k j : FieldId} (v : α) (h : j ≠ k) : (t.set k v).get j = t.get j := by
  cases k <;> cases j <;> first | rfl | exact absurd rfl h

@[simp] theorem PerField.get_ofFn (g : FieldId → α) (k : FieldId) : (PerField.ofFn g).get k = g k := by
  cases k <;> rfl

theorem PerField.ext_get {t u : PerField α} (h : ∀ k, t.get k = u.get k) : t = u := by
  cases t; cases u
  exact congr (congr (congrArg PerField.mk (h .energyIn)) (h .energyOut)) (h .power)

theorem PerField.set_comm {k j : FieldId} (v w : α) (h : k ≠ j) : (t.set k v).set j w = (t.set j w).set k v := by
  cases k <;> cases j <;> first | rfl | exact absurd rfl h

end PerFieldLaws

variable (s : State) (k : FieldId) (o : FieldOut) (inp : Inputs) (q : List Request) (w : Wires) (c : Code)

@[simp] theorem State.setField_inputs : (s.setField k o).inputs = s.inputs := rfl
@[simp] theorem State.setField_queue : (s.setField k o).queue = s.queue := rfl
@[simp] theorem State.setField_unit : (s.setField k o).unit = s.unit := rfl
@[simp] theorem State.setField_fields : (s.setField k o).fields = s.fields.set k o := rfl

@[simp] theorem State.clearFields_inputs : s.clearFields.inputs = s.inputs := rfl
@[simp] theorem State.clearFields_queue : s.clearFields.queue = s.queue := rfl
@[simp] theorem State.clearFields_unit : s.clearFields.unit = s.unit := rfl
@[simp] theorem State.clearFields_get : s.clearFields.fields.get k = .absent := by cases k <;> rfl

@[simp] theorem State.presentInputs_inputs : (s.presentInputs inp).inputs = inp := rfl
@[simp] theorem State.presentInputs_queue : (s.presentInputs inp).queue = s.queue := rfl
@[simp] theorem State.presentInputs_fields : (s.presentInputs inp).fields = s.fields := rfl
@[simp] theorem State.presentInputs_unit : (s.presentInputs inp).unit = s.unit := rfl

@[simp] theorem State.setQueue_inputs : (s.setQueue q).inputs = s.inputs := rfl
@[simp] theorem State.setQueue_queue : (s.setQueue q).queue = q := rfl
@[simp] theorem State.setQueue_fields : (s.setQueue q).fields = s.fields := rfl
@[simp] theorem State.setQueue_unit : (s.setQueue q).unit = s.unit := rfl

@[simp] theorem State.setRecon_inputs : (s.setRecon w).inputs = s.inputs := rfl
@[simp] theorem State.setRecon_queue : (s.setRecon w).queue = s.queue := rfl
@[simp] theorem State.setRecon_fields : (s.setRecon w).fields = s.fields := rfl
@[simp] theorem State.setRecon_recon : (s.setRecon w).unit.recon = some w := rfl
@[simp] theorem State.setRecon_code : (s.setRecon w).unit.code = s.unit.code := rfl

@[simp] theorem State.setCode_inputs : (s.setCode c).inputs = s.inputs := rfl
@[simp] theorem State.setCode_queue : (s.setCode c).queue = s.queue := rfl
@[simp] theorem State.setCode_fields : (s.setCode c).fields = s.fields := rfl
@[simp] theorem State.setCode_recon : (s.setCode c).unit.recon = s.unit.recon := rfl
@[simp] theorem State.setCode_code : (s.setCode c).unit.code = some c := rfl

@[simp] theorem State.extract_inputs : (s.extract k).inputs = s.inputs := rfl
@[simp] theorem State.extract_queue : (s.extract k).queue = s.queue := rfl
@[simp] theorem State.extract_unit : (s.extract k).unit = s.unit := rfl
@[simp] theorem State.extract_get_same : (s.extract k).fields.get k = fieldOut k s.inputs := by
  simp [State.extract]
theorem State.extract_get_ne {k j : FieldId} (h : j ≠ k) : (s.extract k).fields.get j = s.fields.get j := by
  simp [State.extract, PerField.get_set_ne _ _ h]

@[simp] theorem Inputs.withPort_port (p : Int) : (inp.withPort p).port = p := rfl
@[simp] theorem Inputs.withPort_len (p : Int) : (inp.withPort p).len = inp.len := rfl
@[simp] theorem Inputs.withPort_payload (p : Int) : (inp.withPort p).payload = inp.payload := rfl

end Sys2Proof.Machine
end

