-- ==== Sys2Proof/Laws/Step.lean ====
section
/-!
SUPPORT. What a step can do, said once: the evaluations of an invocation, and the three kinds of requests.
-/
namespace Sys2Proof.Machine

/-- The state after an invocation on the inputs a state presents: every field's outputs computed anew. -/
def State.invoked (s : State) : State := { s with fields := .ofFn (fun k => fieldOut k s.inputs) }

@[simp] theorem State.invoked_inputs (s : State) : s.invoked.inputs = s.inputs := rfl
@[simp] theorem State.invoked_queue (s : State) : s.invoked.queue = s.queue := rfl
@[simp] theorem State.invoked_unit (s : State) : s.invoked.unit = s.unit := rfl
@[simp] theorem State.invoked_get (s : State) (k : FieldId) : s.invoked.fields.get k = fieldOut k s.inputs := by
  simp [State.invoked]

theorem hasField_of_port_ne {inp : Inputs} (h : inp.port ≠ 1) (k : FieldId) : hasField k inp = false := by
  simp [hasField, recognisedPort, h]

/-- `DEC.P1` writes every field's outputs. -/
theorem execDecP1_eq (s : State) : execDecP1 s = .next s.invoked := rfl

/-- `DEC.NONE` does the same where the port pins do not carry 1. -/
theorem execDecNone_eq {s : State} (p : Int) (h : s.inputs.port ≠ 1) : execDecNone p s = .next s.invoked := by
  have e : s.clearFields = s.invoked := by
    simp [State.clearFields, State.invoked, fieldOut, hasField_of_port_ne h, PerField.ofFn]
  rw [execDecNone, e]

/-- The operation that the port pins select is the invocation on the present inputs. -/
theorem exec_decodePort (s : State) : exec (decodePort s.inputs.port) s = .next s.invoked := by
  unfold decodePort
  split
  · exact execDecP1_eq s
  · exact execDecNone_eq s.inputs.port ‹_›

/-- What one operation evaluated alone does to the state. -/
def State.evalSingle (s : State) : Selector → State
  | .port p => (s.presentInputs (s.inputs.withPort p)).invoked
  | .pay k => s.extract k
  | .w32 w => s.setRecon (recon w)
  | .res w => s.setCode (enc64 w)

theorem exec_decodePay (s : State) (k : FieldId) : exec (decodePay k) s = .next (s.extract k) := by
  cases k <;> rfl

theorem exec_decodeW32 (s : State) (w : Word) : exec (decodeW32 w) s = .next (s.setRecon (recon w)) := by
  unfold decodeW32 recon
  split <;> rfl

theorem exec_decodeRes (s : State) (w : Word) : exec (decodeRes w) s = .next (s.setCode (enc64 w)) := by
  unfold decodeRes enc64
  split
  · split <;> rfl
  · rfl

theorem step_of_empty {s : State} (h : s.queue = []) : step s = .next s.invoked := by
  simp only [step, fetch, h]
  exact exec_decodePort s

theorem step_of_invoke {s : State} {inp : Inputs} {q : List Request} (h : s.queue = .invoke inp :: q) :
    step s = .next ((s.setQueue q).presentInputs inp).invoked := by
  simp only [step, fetch, h]
  exact exec_decodePort ((s.setQueue q).presentInputs inp)

theorem step_of_single {s : State} {sel : Selector} {q : List Request} (h : s.queue = .single sel :: q) :
    step s = .next ((s.setQueue q).evalSingle sel) := by
  cases sel with
  | port p =>
    simp only [step, fetch, h]
    exact exec_decodePort ((s.setQueue q).presentInputs (s.inputs.withPort p))
  | pay k => simp only [step, fetch, h]; exact exec_decodePay _ k
  | w32 w => simp only [step, fetch, h]; exact exec_decodeW32 _ w
  | res w => simp only [step, fetch, h]; exact exec_decodeRes _ w

/-- Everything a step can do. -/
theorem step_cases {s t : State} (h : step s = .next t) :
    (s.queue = [] ∧ t = s.invoked) ∨
    (∃ inp q, s.queue = .invoke inp :: q ∧ t = ((s.setQueue q).presentInputs inp).invoked) ∨
    (∃ sel q, s.queue = .single sel :: q ∧ t = (s.setQueue q).evalSingle sel) := by
  match hq : s.queue with
  | [] => exact .inl ⟨rfl, by simpa [step_of_empty hq] using h.symm⟩
  | .invoke inp :: q => exact .inr (.inl ⟨inp, q, rfl, by simpa [step_of_invoke hq] using h.symm⟩)
  | .single sel :: q => exact .inr (.inr ⟨sel, q, rfl, by simpa [step_of_single hq] using h.symm⟩)

/-- A run takes its first step first. -/
theorem run_succ (M : Host.Core) (n : Nat) {s t : M.State} (h : M.step s = .next t) : M.run (n + 1) s = M.run n t := by
  simp [Host.Core.run, h]

/-- A run of one more step from a state whose step answers `t` is the run from `t`. -/
theorem runsTo_succ {n : Nat} {s t u : State} (h : step s = .next t) : RunsTo (n + 1) s u ↔ RunsTo n t u := by
  unfold RunsTo
  rw [show Sys2Proof.core.run (n + 1) s = Sys2Proof.core.run n t from run_succ Sys2Proof.core n h]

theorem hasField_iff (k : FieldId) (inp : Inputs) : hasField k inp = true ↔ inp.port = 1 ∧ firstLen k ≤ inp.len := by
  cases k <;> simp [hasField, lenGate, firstLen, Nat.succ_le_iff]

end Sys2Proof.Machine
end

