-- ==== Sys2Proof/Laws/Values.lean ====
section
/-!
SUPPORT. What the shared operations of the reconstruction compute, as numbers (40_float_reconstruction.md R73 to R75): later proofs cite these
and do not unfold the operations.
-/
namespace Sys2Proof.Machine

/-- The scale step is the product with the power of two. -/
theorem scale_eq (m : Nat) (x : Int) : scale m x = (m : Rat) * 2 ^ x := by
  cases x with
  | ofNat n => simp [scale]
  | negSucc n => simp [scale, Rat.mkRat_eq_div, zpow_negSucc, div_eq_mul_inv]

theorem mantSub_toNat (frac : Frac) : (mantSub frac).toNat = 2 * frac.toNat := by
  have h := frac.isLt
  simp [mantSub, Nat.shiftLeft_eq]
  omega

theorem mantNrm_toNat (frac : Frac) : (mantNrm frac).toNat = frac.toNat + 2 ^ 23 := by
  have h := frac.isLt
  have e : (mantNrm frac).toNat = (1 <<< 23) ||| frac.toNat := by
    simp [mantNrm, Nat.mod_eq_of_lt (show frac.toNat < 16777216 by omega), Nat.or_comm]
  rw [e, ← Nat.shiftLeft_add_eq_or_of_lt h]
  omega

theorem assemble_f (s : Sign) (e : Expo) (frac : Frac) (m : Mant) :
    (assemble s e frac m).f = { s := s, mag := (m.toNat : Rat) * 2 ^ ((e.toNat : Int) - 150) } := by
  simp [assemble, val, scaleOf, scale_eq]

/-- The value of the subnormal arm (R73). -/
theorem reconSub_f (s : Sign) (frac : Frac) :
    (reconSub s frac).f = { s := s, mag := ((2 * frac.toNat : Nat) : Rat) * 2 ^ (-150 : Int) } := by
  simp [reconSub, assemble_f, mantSub_toNat]

/-- The value of the normal arm (R74). -/
theorem reconNrm_f (s : Sign) (e : Expo) (frac : Frac) : (reconNrm s e frac).f
    = { s := s, mag := ((frac.toNat + 2 ^ 23 : Nat) : Rat) * 2 ^ ((e.toNat : Int) - 150) } := by
  rw [reconNrm, assemble_f, mantNrm_toNat]

/-- Assembled named values fit together when the mantissa is the arm's (R58). -/
theorem assemble_ok (s : Sign) (e : Expo) (frac : Frac) (m : Mant)
    (hm : m.toNat = if e = 0#8 then 2 * frac.toNat else frac.toNat + 2 ^ 23) : WiresOk (assemble s e frac m) where
  bytes := by
    simp only [assemble, byteOfWord_toNat]
    have := (wordOf s e frac).isLt
    omega
  pattern := wordOf_toNat s e frac
  sign := rfl
  mantissa := hm
  exponent := rfl
  value := assemble_f s e frac m

theorem reconSub_ok (s : Sign) (frac : Frac) : WiresOk (reconSub s frac) :=
  assemble_ok _ _ _ _ (by simp [mantSub_toNat])

theorem reconNrm_ok (s : Sign) {e : Expo} (frac : Frac) (h : e ≠ 0#8) : WiresOk (reconNrm s e frac) :=
  assemble_ok _ _ _ _ (by rw [mantNrm_toNat, if_neg h])

theorem recon_bits (w : Word) : (recon w).bits = w := by
  unfold recon
  split
  · rename_i h
    show wordOf (signOf w) 0#8 (fracOf w) = w
    rw [← h, wordOf_fields]
  · exact wordOf_fields w

/-- `recon` gives named values that fit together. -/
theorem recon_ok (w : Word) : WiresOk (recon w) := by
  unfold recon
  split
  · exact reconSub_ok _ _
  · exact reconNrm_ok _ _ ‹_›

end Sys2Proof.Machine
end

