-- ==== Sys2Proof/Tests/Slice0.lean ====
section
/-!
SUPPORT. Tests. Expected values are the vectors of 95_test_vectors.md (named in each comment) or the patterns of
30_encoding.md written out bit by bit. The witnesses at the end meet the hypotheses of the statements.
-/
namespace Sys2Proof.Tests
open Sys2Proof Sys2Proof.Machine

/-- The next state of an outcome, if it is one. -/
def nextOf : Host.Outcome State Fault Refusal → Option State
  | .next t => some t
  | .fault _ => none
  | .refused _ => none

/-- The state after reset with one invocation asked. -/
def asking (bytes : List Byte) (port : Int) : State := State.reset.setQueue [.invoke (Inputs.ofBytes bytes port)]

/-- The three results after one step. -/
def resultsOf (s : State) : Option (List (Option DecodedValue)) :=
  (nextOf (step s)).map fun t => [t.result .energyIn, t.result .energyOut, t.result .power]

/-- The three valid bits and the three value patterns after one step. -/
def pinsOf (s : State) : Option (List Bool × List Code) :=
  (nextOf (step s)).map fun t => ([t.has .energyIn, t.has .energyOut, t.has .power],
    [t.value .energyIn, t.value .energyOut, t.value .power])

/-! ### Well-formedness: each check refuses an ill-formed term -/

theorem test_wf_decNone_refuses_port_1 : Instr.wf (.decNone 1) = false := by decide
theorem test_wf_b2fNrm_refuses_e_0 : Instr.wf (.b2fNrm 0 0 5) = false := by decide
theorem test_wf_enc64Sub_refuses_frac_0 : Instr.wf (.enc64Sub 1 0) = false := by decide
theorem test_wf_enc64Nrm_refuses_e_0 : Instr.wf (.enc64Nrm 0 0 5) = false := by decide
theorem test_wf_accepts : (Instr.wf (.decNone 2) && Instr.wf (.b2fNrm 0 255 0) && Instr.wf (.enc64Sub 0 1)
    && Instr.wf (.enc64Nrm 1 1 0)) = true := by decide
theorem test_payload_not_rising : Memory.wf [(3, 0x3F), (2, 0x80)] = false := by decide
theorem test_payload_lists_zero : Memory.wf [(0, 0x00), (3, 0x3F)] = false := by decide

/-! ### Decoding: words written out from 30_encoding.md R52, R53, R55 and the table's patterns -/

theorem test_decode_decP1 : decodeTableWord 8 0b00000001 = some .decP1 := by decide
theorem test_decode_decNone : decodeTableWord 8 0b10000001 = some (.decNone 129) := by decide
theorem test_decode_fldEnergyIn : decode (.pay .energyIn) = .fldEnergyIn := by decide
theorem test_decode_fldEnergyOut : decode (.pay .energyOut) = .fldEnergyOut := by decide
theorem test_decode_fldPower : decode (.pay .power) = .fldPower := by decide
theorem test_decode_b2fSub :
    decodeTableWord 32 0b1_00000000_00000000000000001000000 = some (.b2fSub 1 0x40) := by decide
theorem test_decode_b2fNrm :
    decodeTableWord 32 0b1_10000110_11001100100000000000000 = some (.b2fNrm 1 134 0x664000) := by decide
theorem test_decode_b2fNrm_e255 : decodeTableWord 32 0b0_11111111_00000000000000000000000 = some (.b2fNrm 0 255 0) := by
  decide
theorem test_decode_enc64Zero : decode (.res 0b1_00000000_00000000000000000000000#32) = .enc64Zero 1 := by decide
theorem test_decode_enc64Sub : decode (.res 0b0_00000000_00000000000000011001101#32) = .enc64Sub 0 0xCD := by decide
theorem test_decode_enc64Nrm :
    decode (.res 0b1_10000110_11001100100000000000000#32) = .enc64Nrm 1 134 0x664000 := by decide
/-- B25's window `00 40 66 C3`, index 0 first. -/
theorem test_decode_window_bytes : decodeBytes .w32 [0x00, 0x40, 0x66, 0xC3] = .ok (.b2fNrm 1 134 0x664000) := by decide
theorem test_decode_rejects_three_bytes : decodeBytes .w32 [0x00, 0x40, 0x66] = .error (.wrongLength .w32 4 3) := by decide
theorem test_decode_pay_has_no_pattern : decodeBytes .pay [0x00] = .error (.noBitPattern .pay) := by decide
theorem test_tableWord_width_16 : decodeTableWord 16 1 = none := by decide

/-! ### The payload (vectors M2, M3, M5, M6) -/

/-- The payload `11 22 33 44 55 66`. -/
def sixBytes : Inputs := Inputs.ofBytes [0x11, 0x22, 0x33, 0x44, 0x55, 0x66] 1

theorem test_payByte_last_and_past : (payByte sixBytes 5, payByte sixBytes 6) = (0x66, 0x00) := by decide
theorem test_memRead_full : memRead sixBytes 0 = 0x44332211 := by decide
theorem test_memRead_partial : memRead sixBytes 4 = 0x00006655 := by decide

/-! ### Reconstruction (vectors B2, B8, B25, B33), by the step, as the first operation after reset -/

/-- The value of a `B2F` evaluated alone. -/
def loneValue (w : Nat) : Option (Option DecodedValue) :=
  (nextOf (step (State.reset.withFetchWord 32 w))).map fun t => t.unit.recon.map Wires.f

theorem test_b2fSub_negative_zero : loneValue 0x80000000 = some (some (val 1 0 (-150))) := by decide
theorem test_b2fSub_largest : loneValue 0x007FFFFF = some (some (val 0 16777214 (-150))) := by decide
theorem test_b2fNrm_negative : loneValue 0xC3664000 = some (some (val 1 15089664 (-16))) := by decide
theorem test_b2fNrm_e255_is_2_to_128 :
    loneValue 0x7F800000 = some (some { s := 0, mag := 340282366920938463463374607431768211456 }) := by decide

/-! ### Output patterns (vectors E2, E4, E6, E9, E12) -/

/-- The pattern of an `ENC64` evaluated alone. -/
def loneCode (i : Instr) : Option (Option Code) := (nextOf (exec i State.reset)).map fun t => t.unit.code

theorem test_enc64Zero_sign : loneCode (.enc64Zero 1) = some (some 0x8000000000000000) := by decide
theorem test_enc64Sub_3 : loneCode (.enc64Sub 0 0x000003) = some (some 0x36B8000000000000) := by decide
theorem test_enc64Sub_largest : loneCode (.enc64Sub 0 0x7FFFFF) = some (some 0x380FFFFFC0000000) := by decide
theorem test_enc64Nrm_E9 : loneCode (.enc64Nrm 1 134 0x664000) = some (some 0xC06CC80000000000) := by decide
theorem test_enc64Nrm_E12 : loneCode (.enc64Nrm 1 255 0x7FFFFF) = some (some 0xC7FFFFFFE0000000) := by decide

/-! ### Dispatch and extraction (vectors F4, F8, F12, F14, F20, S4, P4) -/

/-- The first `n` bytes of the vectors' payload `Q`. -/
def qBytes (n : Nat) : List Byte :=
  [0xDB, 0x0F, 0x49, 0x40, 0xCD, 0xCC, 0xCC, 0x3D, 0x9A, 0x99, 0xE9, 0xC0, 0xEE, 0xFF].take n

theorem test_decP1_F4 : resultsOf (asking (qBytes 3) 1) = some [none, none, none] := by decide
theorem test_decP1_F14 : resultsOf (asking (qBytes 13) 1)
    = some [some (val 0 13176795 (-22)), some (val 0 13421773 (-27)), some (val 1 15309210 (-21))] := by decide
theorem test_decNone_F20 : pinsOf (asking (qBytes 12) (-1)) = some ([false, false, false], [0, 0, 0]) := by decide
theorem test_decNone_F19 : resultsOf (asking (qBytes 12) 257) = some [none, none, none] := by decide
theorem test_fldEnergyIn_S3 : resultsOf (asking [0x00, 0x00, 0x80, 0x3F] 1)
    = some [some { s := 0, mag := 1 }, none, none] := by decide
theorem test_fldEnergyOut_F8 : pinsOf (asking (qBytes 7) 1)
    = some ([true, true, false], [0x400921FB60000000, 0x38199999A0000000, 0]) := by decide
theorem test_fldPower_F12 : pinsOf (asking (qBytes 11) 1)
    = some ([true, true, true], [0x400921FB60000000, 0x3FB99999A0000000, 0x381D333340000000]) := by decide
theorem test_fldPower_P4 : pinsOf (asking [0x00, 0x00, 0x80, 0x7F, 0x00, 0x00, 0xC0, 0xFF, 0x00, 0x00, 0x00, 0x80] 1)
    = some ([true, true, true], [0x47F0000000000000, 0xC7F8000000000000, 0x8000000000000000]) := by decide

/-! ### The pins (vectors X2, X6, X7, P5 step 2) -/

/-- The state after reset with an invocation by pins of the default widths. -/
def askingPins (portI lenI : BitVec 8) (data : Vector Byte 12) : State :=
  State.reset.setQueue [.invoke (Inputs.ofPins (lenW := Config.lenW) (portW := Config.portW)
    { lenI := lenI, data := data, portI := portI })]

/-- The lanes of X5. -/
def lanesX5 : Vector Byte 12 := #v[0x00, 0x00, 0x80, 0x3F, 0x00, 0x00, 0x00, 0x40, 0x00, 0x00, 0x80, 0xBF]

theorem test_pins_X2 : pinsOf (askingPins 1 5 #v[0x00, 0x00, 0x80, 0x3F, 0x40, 0xFF, 0xFF, 0xFF, 0xFF, 0xFF, 0xFF, 0xFF])
    = some ([true, true, false], [0x3FF0000000000000, 0x3700000000000000, 0]) := by decide
theorem test_pins_X6 : pinsOf (askingPins 1 200 lanesX5)
    = some ([true, true, true], [0x3FF0000000000000, 0x4000000000000000, 0xBFF0000000000000]) := by decide
theorem test_pins_X7 : pinsOf (askingPins 0x81 12 lanesX5) = some ([false, false, false], [0, 0, 0]) := by decide
theorem test_pins_P5 : pinsOf (askingPins 1 6 #v[0x00, 0x00, 0x00, 0x40, 0x01, 0x80, 0x00, 0x40, 0x00, 0x00, 0x80, 0xBF])
    = some ([true, true, false], [0x4000000000000000, 0x3790002000000000, 0]) := by decide

/-! ### Witnesses: states and operands that meet the hypotheses of the statements -/

/-- The state after reset with a four-byte payload on port 1 presented. -/
def onPortOne (n : Nat) : State := State.reset.presentInputs (Inputs.ofBytes (qBytes n) 1)

theorem witness_DecodeUndoesEncode : Instr.wf (.decNone 255) = true ∧ encodeBytes (.decNone 255) = some [0xFF] ∧
    Instr.wf .decP1 = true ∧ encodeBytes .decP1 = some [0x01] ∧ encodeBytes (.decNone 0) = some [0x00] ∧
    Instr.wf (.b2fNrm 1 255 0x7FFFFF) = true ∧ (Instr.b2fNrm 1 255 0x7FFFFF).format = .w32 ∧
    encodeBytes (.b2fNrm 1 255 0x7FFFFF) = some [0xFF, 0xFF, 0xFF, 0xFF] ∧ (Instr.enc64Sub 0 1).format = .res := by decide

theorem witness_EveryEncodingLengthAndPortIsLegal :
    (asking (qBytes 1) (-7)).queue = .invoke (Inputs.ofBytes (qBytes 1) (-7)) :: [] := rfl

theorem witness_PortTestIsEqualityWithOne : Config.Legal Config.lenW Config.portW ∧ Config.Legal 4 1 := by decide

theorem witness_UnrecognisedPortGivesTheEmptyMap : (Inputs.ofBytes (qBytes 12) 0).port ≠ 1 ∧
    (asking (qBytes 12) 0).queue = .invoke (Inputs.ofBytes (qBytes 12) 0) :: [] := by decide

/-- Both clauses of the byte read, at the boundary: index 5 below and index 6 at the length 6. -/
theorem witness_PayByteReadsThePayloadThenZero : 5 < sixBytes.len ∧ sixBytes.len ≤ 6 := by decide

theorem witness_WordBytesArePayloadBytes : (3 : Nat) < 4 := by decide

theorem witness_LanesAtOrPastTheLengthAreMasked : (11 : Nat) < 12 := by decide

/-- Two different payloads of length 5 on port 1 that agree below the length, asked of two different states. -/
theorem witness_OnlyTheSelectedBytesReachTheOutputs :
    let in₁ : Inputs := { payload := Memory.ofBytes (qBytes 14), len := 5, port := 1 }
    let in₂ : Inputs := { payload := Memory.ofBytes (qBytes 5), len := 5, port := 1 }
    (State.reset.setQueue [.invoke in₁]).queue = .invoke in₁ :: [] ∧
    ((onPortOne 12).setQueue [.invoke in₂]).queue = .invoke in₂ :: [] ∧
    in₁.port = in₂.port ∧ (in₁.port = 1 → in₁.len = in₂.len) ∧ in₁ ≠ in₂ ∧
    (in₁.port = 1 → 4 ≤ in₁.len → ∀ i, i < 12 → i < in₁.len → in₁.payload.read i = in₂.payload.read i) := by decide

theorem witness_LongPayloadsActAsTwelveBytes : 12 ≤ (qBytes 14).length := by decide

theorem witness_SubnormalWordReconstruction : (0x000000#23 = 0#23) ∧ (0x000001#23 ≠ 0#23) ∧ (0x7FFFFF#23 ≠ 0#23) ∧
    (1#8 ≠ 0#8) := by decide

theorem witness_NormalWordReconstruction : (1#8 ≠ 0#8) ∧ (254#8 ≠ 0#8) ∧ (255#8 ≠ 0#8) := by decide

theorem witness_AllOnesExponentDecodesToAFiniteNumber : expoOf 0x7F800000#32 = 255#8 ∧ expoOf 0xFFFFFFFF#32 = 255#8 := by
  decide

theorem witness_ReconstructionIsInjective : b2f 0x80000000 = b2f 0x80000000 := rfl

theorem witness_ReconstructionRanges : expoOf 0x007FFFFF#32 = 0#8 ∧ expoOf 0x00800000#32 ≠ 0#8 ∧
    expoOf 0x7F7FFFFF#32 ≠ 255#8 ∧ expoOf 0x7F800000#32 = 255#8 := by decide

theorem witness_LoneOperationsFrame : (Instr.b2fSub 0 0).format = .w32 ∧ (Instr.enc64Zero 0).format = .res := by decide

/-- Gate open at 4 and closed at 3. -/
theorem witness_EnergyInExtraction : (onPortOne 4).inputs.port = 1 ∧ 4 ≤ (onPortOne 4).inputs.len ∧
    (onPortOne 3).inputs.port = 1 ∧ (onPortOne 3).inputs.len < 4 := by decide

/-- Gate open at 5, window complete at 8, gate closed at 4. -/
theorem witness_EnergyOutExtraction : (onPortOne 5).inputs.port = 1 ∧ 4 < (onPortOne 5).inputs.len ∧
    8 ≤ (onPortOne 8).inputs.len ∧ (onPortOne 4).inputs.port = 1 ∧ (onPortOne 4).inputs.len ≤ 4 := by decide

/-- Gate open at 9, window complete at 12, gate closed at 8; another payload that agrees below index 12. -/
theorem witness_PowerExtraction : (onPortOne 9).inputs.port = 1 ∧ 8 < (onPortOne 9).inputs.len ∧
    12 ≤ (onPortOne 12).inputs.len ∧ (onPortOne 8).inputs.port = 1 ∧ (onPortOne 8).inputs.len ≤ 8 ∧
    (∀ i, i < 12 → (Memory.ofBytes (qBytes 14)).read i = (onPortOne 12).inputs.payload.read i) := by decide

theorem witness_ExtractionOffPortOneIsAbsent : State.reset.inputs.port ≠ 1 := by decide

theorem witness_ExtractionFrame : FieldId.power ≠ .energyIn := by decide

theorem witness_ExtractionDrivesTheValuePins :
    (nextOf (exec (decodePay .power) (onPortOne 9))).map (fun t => t.has .power) = some true ∧
    (nextOf (exec (decodePay .power) (onPortOne 8))).map (fun t => t.has .power) = some false := by decide

/-- A partial window (5 bytes) and a complete one (8 bytes, no padding). -/
theorem witness_ShortWindowsAreZeroPadded : windowBase .energyOut < (qBytes 5).length ∧
    firstLen .energyOut ≤ (qBytes 5).length ∧ (qBytes 5).length + 3 = windowBase .energyOut + 4 ∧
    (qBytes 8).length + 0 = windowBase .energyOut + 4 := by decide

theorem witness_PaddedWindowValue : FieldId.energyOut ≠ .energyIn ∧ (qBytes 5).length = windowBase .energyOut + 1 ∧
    (qBytes 11).length = windowBase .power + 3 := by decide

theorem witness_DispatchForPortOne : (onPortOne 0).inputs.port = 1 ∧ (onPortOne 0).inputs.len < 4 ∧
    (onPortOne 12).inputs.port = 1 := by decide

theorem witness_DispatchForEveryOtherPort : (2 : Int) ≠ 1 ∧ (-1 : Int) ≠ 1 := by decide

theorem witness_DispatchFrame : ∃ t, exec (decode (.port 1)) (onPortOne 3) = .next t ∧ t.result .energyIn = none :=
  ⟨_, rfl, by decide⟩

theorem witness_PresenceByPortAndLength :
    (asking (qBytes 9) 1).queue = .invoke (Inputs.ofBytes (qBytes 9) 1) :: [] := rfl

theorem witness_SubnormalPattern : (0x000001#23 ≠ 0#23) ∧ (0x400000#23 ≠ 0#23) := by decide

theorem witness_NormalPattern : (1#8 ≠ 0#8) ∧ (255#8 ≠ 0#8) := by decide

theorem witness_PatternsAreDistinctAndNeverSpecial : enc64 0x7FC00000 = enc64 0x7FC00000 := rfl

/-- One state for each clause: nothing asked; an invocation; a port, a field and a word evaluated alone. -/
theorem witness_StepEvaluatesTheDecodedOperation : State.reset.queue = [] ∧
    (asking (qBytes 4) 1).queue = .invoke (Inputs.ofBytes (qBytes 4) 1) :: [] ∧
    (State.reset.setQueue [.single (.port (-1))]).queue = .single (.port (-1)) :: [] ∧
    (State.reset.setQueue [.single (.port 256)]).queue = .single (.port 256) :: [] ∧
    readSelector .port [0x01] = .ok (.port 1) ∧ decodeBytes .port [0x01] = .ok .decP1 ∧
    (State.reset.setQueue [.single (.port 1)]).queue = .single (.port 1) :: [] ∧
    (State.reset.setQueue [.single (.pay .power)]).queue = .single (.pay .power) :: [] ∧
    readSelector .res [0x00, 0x00, 0x80, 0x3F] = .ok (.res 0x3F800000) ∧
    decodeBytes .res [0x00, 0x00, 0x80, 0x3F] = .ok (.enc64Nrm 0 127 0) ∧
    (State.reset.setQueue [.single (.res 0x3F800000)]).queue = .single (.res 0x3F800000) :: [] := by decide

theorem witness_PlacedTableWordIsEvaluatedNext : decodeTableWord 32 0x3F800000 = some (.b2fNrm 0 127 0) ∧
    decodeTableWord 8 1 = some .decP1 ∧ decodeTableWord 8 255 = some (.decNone 255) := by decide

/-- A good state: the one after reset. Each field is absent and its gate is closed. -/
theorem reset_is_good : Inv State.reset where
  payload := rfl
  queue := by simp [State.reset]
  fields := by
    intro k
    cases k <;>
      exact ⟨by decide, rfl, rfl, fun _ => rfl, fun w h => absurd h (by simp [State.reset, PerField.get, FieldOut.absent]),
        fun w h => absurd h (by simp [State.reset, PerField.get, FieldOut.absent])⟩
  recon := by simp [State.reset]
  code := by simp [State.reset]

theorem witness_StepKeepsTheInvariant : Inv State.reset ∧ ∃ t, step State.reset = .next t := ⟨reset_is_good, _, rfl⟩

/-- A good state with a queue, from which a step presents an open gate. -/
theorem witness_StepKeepsTheInvariant_asked :
    Inv (asking (qBytes 12) 1) ∧ ∃ t, step (asking (qBytes 12) 1) = .next t ∧ t.has .power = true :=
  ⟨{ reset_is_good with queue := by decide }, _, rfl, by decide⟩

/-- The state that presents `00 00 80 3F` on port 1 with its one field extracted: a good state that shows 1.0 (S3). -/
def showingOne : State :=
  (State.reset.presentInputs (Inputs.ofBytes [0x00, 0x00, 0x80, 0x3F] 1)).extract .energyIn

theorem showingOne_reads : readBinary64 0x3FF0000000000000 = some { s := 0, mag := 1 } := by
  have s : (0x3FF0000000000000#64).toNat / 2 ^ 63 = 0 := by decide
  have e : (0x3FF0000000000000#64).toNat / 2 ^ 52 % 2 ^ 11 = 1023 := by decide
  have f : (0x3FF0000000000000#64).toNat % 2 ^ 52 = 0 := by decide
  show readBinary64 0x3FF0000000000000#64 = _
  unfold readBinary64
  simp only [s, e, f]
  norm_num
  rfl

theorem showingOne_is_good : Inv showingOne where
  payload := by decide
  queue := by simp [showingOne, State.extract, State.setField, State.presentInputs, State.reset]
  fields := by
    intro k
    cases k with
    | energyIn =>
      refine ⟨by decide, by decide, by decide, by decide, ?_, ?_⟩
      · rintro w ⟨⟩
        exact ⟨{ bytes := by decide, pattern := by decide, sign := by decide, mantissa := by decide, exponent := by decide,
                 value := (recon_ok 0x3F800000).value }, by decide⟩
      · rintro w ⟨⟩
        exact ⟨by decide, showingOne_reads⟩
    | energyOut =>
      exact ⟨by decide, rfl, rfl, fun _ => rfl, (fun _ h => by cases h), (fun _ h => by cases h)⟩
    | power =>
      exact ⟨by decide, rfl, rfl, fun _ => rfl, (fun _ h => by cases h), (fun _ h => by cases h)⟩
  recon := by intro w h; cases h
  code := by intro c h; cases h

/-- Both clauses: a field that is shown and one that is not. -/
theorem witness_GoodStatesShowOrdinaryNumbers : Inv showingOne ∧ showingOne.has .energyIn = true ∧
    showingOne.has .power = false ∧ Inv State.reset ∧ (State.reset.value .power).extractLsb' 52 11 = 0#11 :=
  ⟨showingOne_is_good, by decide, by decide, reset_is_good, by decide⟩

theorem witness_InvocationMeetsTheDecodeContract :
    (asking (qBytes 14) 1).queue = .invoke (Inputs.ofBytes (qBytes 14) 1) :: [] := rfl

theorem witness_InvocationMeetsThePinFunction : Config.Legal 4 1 ∧
    (State.reset.setQueue [.invoke (Inputs.ofPins (lenW := 4) (portW := 1) ⟨15, lanesX5, 1⟩)]).queue
      = .invoke (Inputs.ofPins (lenW := 4) (portW := 1) ⟨15, lanesX5, 1⟩) :: [] := by decide

/-- A payload of 14 bytes at the pins: the lanes carry its first 12. -/
theorem witness_PinLevelRefinesTheAbstractLevel : Config.Legal 8 8 ∧ (qBytes 14).length = (14#8).toNat ∧
    (∀ (i : Nat) (h : i < 12), i < (14#8).toNat →
      (qBytes 14).getD i 0 = (#v[0xDB, 0x0F, 0x49, 0x40, 0xCD, 0xCC, 0xCC, 0x3D, 0x9A, 0x99, 0xE9, 0xC0] : Vector Byte 12)[i]) := by
  decide

theorem witness_PresentableInvocationsHavePins : Config.Legal 4 1 ∧ (qBytes 14).length ≤ Config.maxLen 4 ∧
    (0 : Int) ≤ 1 ∧ (1 : Int) < 2 ^ 1 := by decide

/-- A state that shows `power` of an earlier invocation, asked for a payload of 8 bytes. -/
theorem witness_ResultIsProducedFresh : ∃ s : State, (s.result .power).isSome = true ∧
    s.queue = .invoke (Inputs.ofBytes (qBytes 8) 1) :: [] ∧ ¬ ((1 : Int) = 1 ∧ firstLen .power ≤ (qBytes 8).length) :=
  ⟨((onPortOne 12).extract .power).setQueue [.invoke (Inputs.ofBytes (qBytes 8) 1)], by decide, rfl, by decide⟩

theorem witness_OutputsHoldWhileInputsDo : Inv showingOne ∧ showingOne.queue = [] ∧
    showingOne.has .energyIn = true := ⟨showingOne_is_good, rfl, by decide⟩

end Sys2Proof.Tests
end

/-!
Runs over a list of requests, and the determinism of an invocation (10_state.md R24).
-/
namespace Sys2Proof.Machine

@[simp] theorem State.evalSingle_queue (s : State) (sel : Selector) : (s.evalSingle sel).queue = s.queue := by
  cases sel <;> rfl

/-- A step takes the request at the head of the queue. -/
theorem exists_step_of_cons {s : State} {r : Request} {q : List Request} (h : s.queue = r :: q) :
    ∃ t, step s = .next t ∧ t.queue = q := by
  cases r with
  | invoke inp => exact ⟨_, step_of_invoke h, rfl⟩
  | single sel => exact ⟨_, step_of_single h, by simp⟩

/-- After an invocation the outputs are the function of its inputs, whatever the state was before. -/
theorem exists_step_fields_of_invoke {s : State} {inp : Inputs} {q : List Request} (h : s.queue = .invoke inp :: q) :
    ∃ t, step s = .next t ∧ t.queue = q ∧ t.fields = .ofFn (fun k => fieldOut k inp) :=
  ⟨_, step_of_invoke h, rfl, rfl⟩

theorem runsTo_zero (s : State) : RunsTo 0 s s := rfl

theorem runsTo_one {s t : State} (h : step s = .next t) : RunsTo 1 s t := (runsTo_succ h).2 (runsTo_zero t)

/-- A run over requests that ends in a last invocation: each request is answered in turn, and the outputs at the end
are those of the last inputs. -/
theorem exists_runsTo_fields_of_append_invoke {asked : List Request} {inp : Inputs} {s : State}
    (h : s.queue = asked ++ [.invoke inp]) :
    ∃ t, RunsTo (asked.length + 1) s t ∧ t.fields = .ofFn (fun k => fieldOut k inp) := by
  induction asked generalizing s with
  | nil =>
    obtain ⟨t, hstep, -, hfields⟩ := exists_step_fields_of_invoke h
    exact ⟨t, runsTo_one hstep, hfields⟩
  | cons r asked ih =>
    obtain ⟨s', hstep, hqueue⟩ := exists_step_of_cons h
    obtain ⟨t, hrun, hfields⟩ := ih hqueue
    exact ⟨t, (runsTo_succ hstep).2 hrun, hfields⟩

/-- Settles O56: after the first invocation and after the last the outputs are the same function of the same inputs. -/
theorem decodeIsIdempotent : Obligations.DecodeIsIdempotent := by
  intro s bytes port between
  obtain ⟨t, hstep, -, ht⟩ := exists_step_fields_of_invoke
    (State.setQueue_queue s (.invoke (Inputs.ofBytes bytes port) :: between ++ [.invoke (Inputs.ofBytes bytes port)]))
  obtain ⟨u, hrun, hu⟩ := exists_runsTo_fields_of_append_invoke
    (State.setQueue_queue s (.invoke (Inputs.ofBytes bytes port) :: between ++ [.invoke (Inputs.ofBytes bytes port)]))
  have hfields : t.fields = u.fields := ht.trans hu.symm
  exact ⟨t, u, runsTo_one hstep, hrun, hfields, fun k => by rw [State.result, State.result, hfields]⟩

end Sys2Proof.Machine

/-!
The payload as memory (20_memory.md): what a byte read gives, how a window is put together from its four bytes, and
that no operation stores.
-/
namespace Sys2Proof.Machine

section PayloadBytes

variable (inp : Inputs) {i : Nat}

theorem payByte_of_len_le (h : inp.len ≤ i) : payByte inp i = 0x00#8 := if_neg h.not_gt

theorem payByte_of_lt_len (h : i < inp.len) : payByte inp i = inp.payload.read i := if_pos h

end PayloadBytes

/-- The bytes of a presented sequence are read back at their own indices, and `0x00` after them (R33). -/
theorem payByte_ofBytes (bytes : List Byte) (port : Int) (i : Nat) :
    payByte (Inputs.ofBytes bytes port) i = bytes.getD i 0x00#8 := by
  by_cases h : i < bytes.length
  · rw [payByte_of_lt_len _ h]
    exact Memory.read_ofBytes bytes i
  · rw [payByte_of_len_le _ (not_lt.mp h), List.getD_eq_default _ _ (not_lt.mp h)]

/-- Settles O9: below the length the byte presented, at and above it zero. -/
theorem payByteReadsThePayloadThenZero : Obligations.PayByteReadsThePayloadThenZero := by
  refine ⟨fun bytes port i => ?_, fun inp _ => payByte_of_len_le inp, fun inp _ => payByte_of_lt_len inp⟩
  rw [payByte_ofBytes]
  split
  · exact List.getD_eq_getElem _ _ ‹_›
  · exact List.getD_eq_default _ _ (not_lt.mp ‹_›)

/-- A concatenation, widened or cut to any width, is the OR of its high part shifted past the low one and the low one:
the two occupy bit positions of their own (R34). -/
theorem setWidth_append_eq_or {n v : Nat} (w : Nat) (x : BitVec n) (y : BitVec v) :
    (x ++ y).setWidth w = (x.setWidth w <<< v) ||| y.setWidth w := by
  ext i hi
  by_cases h : i < v
  · simp [BitVec.getLsbD_append, h]
  · simp [BitVec.getLsbD_append, h, BitVec.getLsbD_of_ge y i (not_lt.mp h)]

/-- A word's bytes one by one: each shifted to its own eight bit positions (R34). -/
theorem wordOfBytes_eq_or (b0 b1 b2 b3 : Byte) : wordOfBytes b0 b1 b2 b3
    = (b3.setWidth 32 <<< 24) ||| (b2.setWidth 32 <<< 16) ||| (b1.setWidth 32 <<< 8) ||| b0.setWidth 32 := by
  have h : (wordOfBytes b0 b1 b2 b3).setWidth 32
      = ((b3.setWidth 32 <<< 8 ||| b2.setWidth 32) <<< 8 ||| b1.setWidth 32) <<< 8 ||| b0.setWidth 32 := by
    simp only [wordOfBytes, setWidth_append_eq_or]
  rw [BitVec.setWidth_eq] at h
  simpa only [BitVec.shiftLeft_or_distrib, ← BitVec.shiftLeft_add] using h

/-- The word of a window as a number is the weighted sum of its bytes (R34). -/
theorem memRead_toNat (inp : Inputs) (a : Nat) : (memRead inp a).toNat = windowNat inp a := wordOfBytes_toNat _ _ _ _

/-- Settles O10: OR, concatenation and sum are three readings of `wordOfBytes`. -/
theorem memReadAssemblesLittleEndian : Obligations.MemReadAssemblesLittleEndian := by
  refine ⟨fun inp a => ⟨wordOfBytes_eq_or _ _ _ _, rfl, memRead_toNat inp a⟩, fun k => ?_⟩
  cases k with
  | energyIn => exact .inl rfl
  | energyOut => exact .inr (.inl rfl)
  | power => exact .inr (.inr rfl)

/-- Everything an operation can do: compute all fields anew, clear them, write one field, or write one of the two
outputs of an operation evaluated alone. There is no fault, no refusal and no store. -/
theorem exec_cases (i : Instr) (s : State) : ∃ t, exec i s = .next t ∧
    (t = s.invoked ∨ t = s.clearFields ∨ (∃ k, t = s.extract k) ∨ (∃ w, t = s.setRecon w) ∨ ∃ c, t = s.setCode c) := by
  cases i with
  | decP1 => exact ⟨_, execDecP1_eq s, .inl rfl⟩
  | decNone p => exact ⟨_, rfl, .inr (.inl rfl)⟩
  | fldEnergyIn => exact ⟨_, rfl, .inr (.inr (.inl ⟨.energyIn, rfl⟩))⟩
  | fldEnergyOut => exact ⟨_, rfl, .inr (.inr (.inl ⟨.energyOut, rfl⟩))⟩
  | fldPower => exact ⟨_, rfl, .inr (.inr (.inl ⟨.power, rfl⟩))⟩
  | b2fSub sg frac => exact ⟨_, rfl, .inr (.inr (.inr (.inl ⟨reconSub sg frac, rfl⟩)))⟩
  | b2fNrm sg e frac => exact ⟨_, rfl, .inr (.inr (.inr (.inl ⟨reconNrm sg e frac, rfl⟩)))⟩
  | enc64Zero sg => exact ⟨_, rfl, .inr (.inr (.inr (.inr ⟨codeZero sg, rfl⟩)))⟩
  | enc64Sub sg frac => exact ⟨_, rfl, .inr (.inr (.inr (.inr ⟨codeSub sg frac, rfl⟩)))⟩
  | enc64Nrm sg e frac => exact ⟨_, rfl, .inr (.inr (.inr (.inr ⟨codeNrm sg e frac, rfl⟩)))⟩

/-- The frame of every operation: the inputs and the requests still to come (R42). -/
theorem exec_keeps_inputs_queue (i : Instr) (s : State) :
    ∃ t, exec i s = .next t ∧ t.inputs = s.inputs ∧ t.queue = s.queue := by
  obtain ⟨t, hexec, rfl | rfl | ⟨k, rfl⟩ | ⟨w, rfl⟩ | ⟨c, rfl⟩⟩ := exec_cases i s
  · exact ⟨_, hexec, s.invoked_inputs, s.invoked_queue⟩
  · exact ⟨_, hexec, s.clearFields_inputs, s.clearFields_queue⟩
  · exact ⟨_, hexec, State.extract_inputs .., State.extract_queue ..⟩
  · exact ⟨_, hexec, s.setRecon_inputs w, s.setRecon_queue w⟩
  · exact ⟨_, hexec, s.setCode_inputs c, s.setCode_queue c⟩

/-- Settles O15: the payload is part of the inputs, which every operation leaves as they are. -/
theorem noOperationWritesThePayload : Obligations.NoOperationWritesThePayload := by
  intro i s
  obtain ⟨t, hexec, hinputs, hqueue⟩ := exec_keeps_inputs_queue i s
  exact ⟨t, hexec, hinputs, hqueue, fun a => by rw [hinputs]⟩

end Sys2Proof.Machine

/-!
Encodings (30_encoding.md): every selector is legal, and a port other than 1 selects the empty map.
-/
namespace Sys2Proof

theorem decodePort_of_ne {p : Int} (h : p ≠ 1) : decodePort p = .decNone p := if_neg h

/-- What is decoded meets the selector condition of its row: each branch of the decoder has just tested it (R61). -/
theorem decode_wf (sel : Selector) : (decode sel).wf = true := by
  cases sel with
  | port p =>
    by_cases hp : p = 1
    · simp [decode, decodePort, hp, Instr.wf]
    · simp [decode, decodePort_of_ne hp, hp, Instr.wf]
  | pay k => cases k <;> rfl
  | w32 w =>
    by_cases he : expoOf w = 0#8
    · simp [decode, decodeW32, he, Instr.wf]
    · simp [decode, decodeW32, he, Instr.wf]
  | res w =>
    by_cases he : expoOf w = 0#8
    · by_cases hfrac : fracOf w = 0#23
      · simp [decode, decodeRes, he, hfrac, Instr.wf]
      · simp [decode, decodeRes, he, hfrac, Instr.wf]
    · simp [decode, decodeRes, he, Instr.wf]

theorem decodeBytes_w32 (b0 b1 b2 b3 : Byte) :
    decodeBytes .w32 [b0, b1, b2, b3] = .ok (decodeW32 (wordOfBytes b0 b1 b2 b3)) := rfl

theorem decodeBytes_port (b : Byte) : decodeBytes .port [b] = .ok (decodePort b.toNat) := rfl

end Sys2Proof

namespace Sys2Proof.Machine

theorem exists_exec_eq_next (i : Instr) (s : State) : ∃ t, exec i s = .next t :=
  (exec_cases i s).imp fun _ h => h.1

/-- Settles O4: the decoder is total on the carriers of every format, and no operation stops. -/
theorem everyEncodingLengthAndPortIsLegal : Obligations.EveryEncodingLengthAndPortIsLegal :=
  ⟨decode_wf,
    fun b0 b1 b2 b3 => ⟨_, decodeBytes_w32 b0 b1 b2 b3, exists_exec_eq_next _⟩,
    fun b => ⟨_, decodeBytes_port b, exists_exec_eq_next _⟩,
    fun _ _ _ _ hqueue => ⟨_, step_of_invoke hqueue⟩⟩

theorem fieldOut_of_port_ne {inp : Inputs} (h : inp.port ≠ 1) (k : FieldId) : fieldOut k inp = .absent := by
  simp [fieldOut, hasField_of_port_ne h]

/-- Settles O8: `DEC.NONE` is selected, and off port 1 every field's outputs are those of an absent field. -/
theorem unrecognisedPortGivesTheEmptyMap : Obligations.UnrecognisedPortGivesTheEmptyMap := by
  intro s inp q hport hqueue
  obtain ⟨t, hstep, -, hfields⟩ := exists_step_fields_of_invoke hqueue
  refine ⟨decodePort_of_ne hport, t, hstep, fun k => ?_⟩
  calc t.result k = (fieldOut k inp).result := by rw [State.result, hfields, PerField.get_ofFn]
    _ = none := by rw [fieldOut_of_port_ne hport, FieldOut.absent]

end Sys2Proof.Machine

/-!
Float reconstruction (40_float_reconstruction.md): the fields of a word as bits, the named values of a word in both arms,
and the magnitude of each arm as a number.
-/
namespace Sys2Proof

theorem signOf_getLsbD_zero (w : Word) : (signOf w).getLsbD 0 = w.getLsbD 31 := by
  simp [signOf]

theorem expoOf_getLsbD (w : Word) {i : Nat} (h : i < 8) : (expoOf w).getLsbD i = w.getLsbD (23 + i) := by
  simp [expoOf, h]

theorem fracOf_getLsbD (w : Word) {i : Nat} (h : i < 23) : (fracOf w).getLsbD i = w.getLsbD i := by
  simp [fracOf, h]

/-- GW's shift and mask for the exponent field (R72). -/
theorem expoOf_setWidth (w : Word) : (expoOf w).setWidth 32 = (w >>> 23) &&& 0xFF#32 := by
  apply BitVec.eq_of_toNat_eq
  have hmask : (w >>> 23 &&& 0xFF#32).toNat = w.toNat / 2 ^ 23 % 2 ^ 8 := by
    rw [BitVec.toNat_and, BitVec.toNat_ushiftRight, Nat.shiftRight_eq_div_pow]
    exact Nat.and_two_pow_sub_one_eq_mod _ 8
  rw [hmask, BitVec.toNat_setWidth, expoOf_toNat]
  omega

/-- GW's mask for the fraction (R72). -/
theorem fracOf_setWidth (w : Word) : (fracOf w).setWidth 32 = w &&& 0x7fffff#32 := by
  apply BitVec.eq_of_toNat_eq
  have hmask : (w &&& 0x7fffff#32).toNat = w.toNat % 2 ^ 23 := by
    rw [BitVec.toNat_and]
    exact Nat.and_two_pow_sub_one_eq_mod _ 23
  rw [hmask, BitVec.toNat_setWidth, fracOf_toNat]
  omega

theorem decode_wordOf_zero (s : Sign) (frac : Frac) : decode (.w32 (wordOf s 0#8 frac)) = .b2fSub s frac := by
  simp [decode, decodeW32]

theorem decode_wordOf_of_ne_zero (s : Sign) {e : Expo} (frac : Frac) (h : e ≠ 0#8) :
    decode (.w32 (wordOf s e frac)) = .b2fNrm s e frac := by
  simp [decode, decodeW32, h]

end Sys2Proof

namespace Sys2Proof.Machine

theorem signFactor_signOf (w : Word) : signFactor (signOf w) = if w.getLsbD 31 then -1 else 1 := by
  have hbit : signOf w = BitVec.ofBool (w.getLsbD 31) := by
    rw [← signOf_getLsbD_zero]
    exact BitVec.eq_of_getLsbD_eq fun i hi => by simp [show i = 0 by omega]
  rw [hbit]
  cases w.getLsbD 31 with
  | false => rfl
  | true => rfl

section NamedValues

variable (w : Word)

/-- The mantissa of a word: the two arms differ in nothing else (R58, R75). -/
def mantOf : Mant := if expoOf w = 0#8 then mantSub (fracOf w) else mantNrm (fracOf w)

/-- Both arms are one assembly of the word's fields, on the arm's own mantissa (R75). -/
theorem recon_eq_assemble : recon w = assemble (signOf w) (expoOf w) (fracOf w) (mantOf w) := by
  unfold recon mantOf
  split
  · rename_i h
    rw [reconSub, h]
  · rfl

@[simp] theorem recon_s : (recon w).s = signOf w := by rw [recon_eq_assemble]; rfl
@[simp] theorem recon_e : (recon w).e = expoOf w := by rw [recon_eq_assemble]; rfl
@[simp] theorem recon_frac : (recon w).frac = fracOf w := by rw [recon_eq_assemble]; rfl
@[simp] theorem recon_sign : (recon w).sign = signFactor (signOf w) := by rw [recon_eq_assemble]; rfl
@[simp] theorem recon_m : (recon w).m = mantOf w := by rw [recon_eq_assemble]; rfl
@[simp] theorem recon_x : (recon w).x = ((expoOf w).toNat : Int) - 150 := by rw [recon_eq_assemble]; rfl

theorem recon_wordOf_zero (s : Sign) (frac : Frac) : recon (wordOf s 0#8 frac) = reconSub s frac := by
  simp [recon]

theorem recon_wordOf_of_ne_zero (s : Sign) {e : Expo} (frac : Frac) (h : e ≠ 0#8) :
    recon (wordOf s e frac) = reconNrm s e frac := by
  simp [recon, h]

theorem b2f_eq_val : b2f w = val (signOf w) (recon w).m.toNat (recon w).x := by
  rw [b2f, recon_eq_assemble]
  rfl

/-- GW's formula with the product written out (R75). -/
theorem b2f_eq_mul_zpow : b2f w = { s := signOf w, mag := ((recon w).m.toNat : Rat) * 2 ^ (recon w).x } := by
  rw [b2f_eq_val, val, scale_eq]

/-- The wires compute GW's formula on the word as a number (R75). -/
theorem b2f_eq_gwValue : b2f w = gwValue w.toNat := by
  have hs : BitVec.ofNat 1 (signNat w.toNat) = signOf w := by
    rw [signNat, ← signOf_toNat, BitVec.ofNat_toNat, BitVec.setWidth_eq]
  have he : expoNat w.toNat = (expoOf w).toNat := (expoOf_toNat w).symm
  have hm : (recon w).m.toNat
      = if (expoOf w).toNat = 0 then 2 * fracNat w.toNat else fracNat w.toNat + 0x800000 := by
    simpa [← BitVec.toNat_inj, fracOf_toNat, fracNat] using (recon_ok w).mantissa
  rw [b2f_eq_mul_zpow, recon_x, hm, gwValue, hs, he]

end NamedValues

/-- Settles O5: the fields are cut out of the word, and both arms pass them on unadjusted. -/
theorem exponentAndFractionFieldsChooseTheArm : Obligations.ExponentAndFractionFieldsChooseTheArm := fun w =>
  ⟨fun _ => expoOf_getLsbD w, fun _ => fracOf_getLsbD w, expoOf_setWidth w, fracOf_setWidth w, rfl,
    recon_e w, recon_frac w⟩

/-- Settles O6: both arms pass the sign field on, whatever the exponent and the fraction are. -/
theorem signIsTakenFromBit31 : Obligations.SignIsTakenFromBit31 := by
  intro w
  refine ⟨recon_s w, signOf_getLsbD_zero w, congrArg DecodedValue.s (b2f_eq_val w), ?_⟩
  rw [recon_sign, signFactor_signOf]

/-- Settles O18: the exponent field has 8 bits, and both arms are one assembly on the same scale. -/
theorem valueIsGwsFormula : Obligations.ValueIsGwsFormula := by
  intro w
  have hx := recon_x w
  have he := (expoOf w).isLt
  exact ⟨b2f_eq_gwValue w, rfl, hx, by omega, by omega, b2f_eq_val w, b2f_eq_mul_zpow w⟩

/-- The doubled fraction has a clear lowest bit (R73). -/
theorem mantSub_getLsbD_zero (frac : Frac) : (mantSub frac).getLsbD 0 = false := by
  simp [mantSub]

/-- The OR puts in the leading 1 (R74). -/
theorem mantNrm_getLsbD_23 (frac : Frac) : (mantNrm frac).getLsbD 23 = true := by
  simp [mantNrm]

theorem mantSub_toNat_le (frac : Frac) : (mantSub frac).toNat ≤ 0xFFFFFE := by
  have h := frac.isLt
  rw [mantSub_toNat]
  omega

theorem le_mantNrm_toNat (frac : Frac) : 0x800000 ≤ (mantNrm frac).toNat := by
  rw [mantNrm_toNat]
  omega

section Magnitudes

variable (s : Sign) (e : Expo) (frac : Frac)

/-- The subnormal arm in units of `2^-149`: the doubled mantissa takes one from the exponent (R73). -/
theorem reconSub_f_unit : (reconSub s frac).f = { s := s, mag := (frac.toNat : Rat) * 2 ^ (-149 : Int) } := by
  have hdouble : (2 : Rat) ^ (-149 : Int) = 2 * 2 ^ (-150 : Int) := by norm_num
  rw [reconSub_f, hdouble]
  push_cast
  ring_nf

theorem reconSub_mag : (reconSub s frac).f.mag = (frac.toNat : Rat) * 2 ^ (-149 : Int) :=
  congrArg DecodedValue.mag (reconSub_f_unit s frac)

theorem le_reconSub_mag {frac : Frac} (h : frac ≠ 0#23) : (2 : Rat) ^ (-149 : Int) ≤ (reconSub s frac).f.mag := by
  have hfrac : 1 ≤ frac.toNat := Nat.one_le_iff_ne_zero.mpr fun h0 => h (BitVec.eq_of_toNat_eq h0)
  rw [reconSub_mag]
  exact le_mul_of_one_le_left (by positivity) (mod_cast hfrac)

theorem reconSub_mag_le : (reconSub s frac).f.mag ≤ (2 ^ 23 - 1) * 2 ^ (-149 : Int) := by
  have hfrac : (frac.toNat : Rat) + 1 ≤ 2 ^ 23 := mod_cast frac.isLt
  rw [reconSub_mag]
  gcongr
  exact le_sub_iff_add_le.mpr hfrac

theorem reconSub_mag_largest : (reconSub s 0x7FFFFF#23).f.mag = (2 ^ 23 - 1) * 2 ^ (-149 : Int) := by
  rw [reconSub_mag]
  norm_num

theorem b2f_wordOf_zero :
    b2f (wordOf s 0#8 frac) = { s := s, mag := (frac.toNat : Rat) * 2 ^ (-149 : Int) } := by
  rw [b2f, recon_wordOf_zero, reconSub_f_unit]

/-- The normal arm with the leading 1 before the point (R74). -/
theorem reconNrm_f_unit : (reconNrm s e frac).f
    = { s := s, mag := (1 + (frac.toNat : Rat) / 2 ^ 23) * 2 ^ ((e.toNat : Int) - 127) } := by
  have hscale : (2 : Rat) ^ ((e.toNat : Int) - 127) = 2 ^ 23 * 2 ^ ((e.toNat : Int) - 150) := by
    rw [← zpow_natCast, ← zpow_add₀ two_ne_zero]
    congr 1
    push_cast
    ring
  rw [reconNrm_f, hscale]
  push_cast
  congr 1
  ring

theorem b2f_wordOf_of_ne_zero {e : Expo} (h : e ≠ 0#8) : b2f (wordOf s e frac)
    = { s := s, mag := (1 + (frac.toNat : Rat) / 2 ^ 23) * 2 ^ ((e.toNat : Int) - 127) } := by
  rw [b2f, recon_wordOf_of_ne_zero s frac h, reconNrm_f_unit]

/-- The smallest normal magnitude (R74). -/
theorem le_reconNrm_mag {e : Expo} (h : e ≠ 0#8) : (2 : Rat) ^ (-126 : Int) ≤ (reconNrm s e frac).f.mag := by
  have he : 1 ≤ e.toNat := Nat.one_le_iff_ne_zero.mpr fun h0 => h (BitVec.eq_of_toNat_eq h0)
  have hpow : (2 : Rat) ^ (-126 : Int) ≤ 2 ^ ((e.toNat : Int) - 127) := zpow_le_zpow_right₀ one_le_two (by omega)
  rw [reconNrm_f_unit]
  calc (2 : Rat) ^ (-126 : Int) ≤ 1 * 2 ^ ((e.toNat : Int) - 127) := by rwa [one_mul]
    _ ≤ (1 + (frac.toNat : Rat) / 2 ^ 23) * 2 ^ ((e.toNat : Int) - 127) := by
      gcongr
      exact le_add_of_nonneg_right (by positivity)

/-- The normal arm on `e == 255` (R76). -/
theorem reconNrm_f_all_ones :
    (reconNrm s 255#8 frac).f = { s := s, mag := (2 ^ 23 + (frac.toNat : Rat)) * 2 ^ (105 : Int) } := by
  rw [reconNrm_f]
  push_cast
  congr 1
  norm_num [add_comm]

theorem le_reconNrm_mag_all_ones : (2 : Rat) ^ 128 ≤ (reconNrm s 255#8 frac).f.mag := by
  rw [reconNrm_f_all_ones]
  calc (2 : Rat) ^ 128 = 2 ^ 23 * 2 ^ (105 : Int) := by norm_num
    _ ≤ (2 ^ 23 + (frac.toNat : Rat)) * 2 ^ (105 : Int) := by
      gcongr
      exact le_add_of_nonneg_right (Nat.cast_nonneg _)

theorem reconNrm_mag_all_ones_lt : (reconNrm s 255#8 frac).f.mag < 2 ^ 129 := by
  have hfrac : (frac.toNat : Rat) < 2 ^ 23 := mod_cast frac.isLt
  rw [reconNrm_f_all_ones]
  calc (2 ^ 23 + (frac.toNat : Rat)) * 2 ^ (105 : Int) < (2 ^ 23 + 2 ^ 23) * 2 ^ (105 : Int) := by gcongr
    _ = 2 ^ 129 := by norm_num

theorem recon_wordOf_all_ones : recon (wordOf s 255#8 frac) = reconNrm s 255#8 frac :=
  recon_wordOf_of_ne_zero s frac (by decide)

theorem b2f_wordOf_all_ones :
    b2f (wordOf s 255#8 frac) = { s := s, mag := (2 ^ 23 + (frac.toNat : Rat)) * 2 ^ (105 : Int) } := by
  rw [b2f, recon_wordOf_all_ones, reconNrm_f_all_ones]

/-- The mantissa that GW ORs together, on the scale `255 - 150` (R76). -/
theorem b2f_wordOf_all_ones_eq_val :
    b2f (wordOf s 255#8 frac) = val s (0x800000#24 ||| frac.setWidth 24).toNat 105 := by
  rw [b2f, recon_wordOf_all_ones, BitVec.or_comm]
  rfl

end Magnitudes

/-- Settles O19: a word with `e == 255` goes through the normal arm like any other. -/
theorem allOnesExponentDecodesToAFiniteNumber : Obligations.AllOnesExponentDecodesToAFiniteNumber := by
  refine ⟨fun w he => ?_, (b2f_wordOf_all_ones 0 0x000000#23).trans ?_, (b2f_wordOf_all_ones 1 0x000000#23).trans ?_,
    (b2f_wordOf_all_ones 0 0x400000#23).trans ?_, (b2f_wordOf_all_ones 0 0x000001#23).trans ?_,
    (b2f_wordOf_all_ones 0 0x7FFFFF#23).trans ?_, (b2f_wordOf_all_ones 1 0x7FFFFF#23).trans ?_⟩
  · obtain ⟨s, frac, rfl⟩ : ∃ s frac, w = wordOf s 255#8 frac :=
      ⟨signOf w, fracOf w, by rw [← he, wordOf_fields]⟩
    rw [signOf_wordOf, fracOf_wordOf]
    refine ⟨b2f_wordOf_all_ones_eq_val s frac, congrArg DecodedValue.mag (b2f_wordOf_all_ones s frac), ?_⟩
    rw [b2f, recon_wordOf_all_ones]
    exact ⟨le_reconNrm_mag_all_ones s frac, reconNrm_mag_all_ones_lt s frac⟩
  all_goals norm_num

/-- Settles O16: one unit of `2^-149` for each unit of the fraction; the largest is one unit below the normal arm. -/
theorem subnormalWordReconstruction : Obligations.SubnormalWordReconstruction := by
  refine ⟨fun sg frac s => ⟨decode_wordOf_zero sg frac, _, _, rfl, State.setRecon_recon .., State.setRecon_fields ..,
      rfl, rfl, rfl, rfl, mantSub_toNat frac, mantSub_getLsbD_zero frac, mantSub_toNat_le frac, rfl,
      (reconSub_ok sg frac).value, reconSub_f_unit sg frac, ?zero, ?smallest, le_reconSub_mag sg,
      reconSub_mag_le sg frac, ?largest⟩,
    (b2f_wordOf_zero 0 0x000000#23).trans ?plusZero, (b2f_wordOf_zero 1 0x000000#23).trans ?minusZero,
    decode_wordOf_zero 0 0x000040#23, ?exampleMantissa, (b2f_wordOf_zero 0 0x000040#23).trans ?exampleValue⟩
  case zero => rintro rfl; simp [reconSub_f_unit]
  case smallest => rintro rfl; simp [reconSub_mag]
  case largest =>
    rintro rfl
    refine ⟨reconSub_mag_largest sg, fun e f' he => ?_⟩
    calc (reconSub sg 0x7FFFFF#23).f.mag + 2 ^ (-149 : Int) = 2 ^ (-126 : Int) := by
          rw [reconSub_mag_largest]
          norm_num
      _ ≤ (reconNrm sg e f').f.mag := le_reconNrm_mag sg f' he
  case plusZero | minusZero | exampleValue => norm_num
  case exampleMantissa => decide

/-- Settles O17: the leading 1 keeps every magnitude at `2^-126` or above. -/
theorem normalWordReconstruction : Obligations.NormalWordReconstruction := by
  refine ⟨fun sg e frac s he => ⟨decode_wordOf_of_ne_zero sg frac he, _, _, rfl, State.setRecon_recon ..,
      State.setRecon_fields .., rfl, rfl, rfl, rfl, rfl, mantNrm_toNat frac, mantNrm_getLsbD_23 frac,
      le_mantNrm_toNat frac, rfl, (reconNrm_ok sg frac he).value, reconNrm_f_unit sg e frac, ?nonzero,
      le_reconNrm_mag sg frac he, ?smallest, ?largest, ?allOnes⟩,
    decode_wordOf_of_ne_zero 0 (e := 127#8) 0 (by decide),
    (b2f_wordOf_of_ne_zero 0 (e := 127#8) 0 (by decide)).trans ?exampleValue⟩
  case nonzero => exact (lt_of_lt_of_le (by positivity) (le_reconNrm_mag sg frac he)).ne'
  case smallest => rintro rfl rfl; norm_num [reconNrm_f_unit]
  case largest => rintro rfl rfl; norm_num [reconNrm_f_unit]
  case allOnes =>
    rintro rfl
    exact ⟨congrArg DecodedValue.mag (reconNrm_f_all_ones sg frac), le_reconNrm_mag_all_ones sg frac⟩
  case exampleValue => norm_num

end Sys2Proof.Machine

/-!
Field extraction (41_field_extraction.md): what an extraction, a dispatch and an invocation give a field, and which
bytes of the payload a field depends on.
-/
namespace Sys2Proof.Machine

section FieldOutputs

variable {k : FieldId} {inp : Inputs}

theorem fieldOut_of_hasField (h : hasField k inp = true) : fieldOut k inp =
    { result := some (b2f (memRead inp (windowBase k))), wires := some (fieldWires k inp), valid := true,
      value := enc64 (memRead inp (windowBase k)) } := if_pos h

theorem fieldOut_of_not_hasField (h : ¬ hasField k inp = true) : fieldOut k inp = .absent := if_neg h

variable (k inp)

/-- The key is in the result under the field's gate and no other condition (R86). -/
theorem fieldOut_result : (fieldOut k inp).result
    = if inp.port = 1 ∧ firstLen k ≤ inp.len then some (b2f (memRead inp (windowBase k))) else none := by
  split
  · rw [fieldOut_of_hasField ((hasField_iff k inp).2 ‹_›)]
  · rw [fieldOut_of_not_hasField (mt (hasField_iff k inp).1 ‹_›), FieldOut.absent]

/-- The presence flag says whether the key is there (R18). -/
theorem fieldOut_valid : (fieldOut k inp).valid = (fieldOut k inp).result.isSome := by
  by_cases h : hasField k inp = true
  · rw [fieldOut_of_hasField h, Option.isSome_some]
  · rw [fieldOut_of_not_hasField h, FieldOut.absent, Option.isSome_none]

variable {k inp}

theorem fieldOut_result_of_port_one (h : inp.port = 1) : (fieldOut k inp).result
    = if firstLen k ≤ inp.len then some (b2f (memRead inp (windowBase k))) else none := by
  simp only [fieldOut_result, h, true_and]

theorem four_le_firstLen (k : FieldId) : 4 ≤ firstLen k := by cases k <;> decide

theorem fieldOut_of_len_lt (h : inp.len < firstLen k) : fieldOut k inp = .absent :=
  fieldOut_of_not_hasField fun hk => h.not_ge ((hasField_iff k inp).1 hk).2

/-- A window's word depends on its four bytes only. -/
theorem memRead_congr {inp' : Inputs} {a : Nat} (h : ∀ j, j < 4 → payByte inp (a + j) = payByte inp' (a + j)) :
    memRead inp a = memRead inp' a := by
  have h0 : payByte inp a = payByte inp' a := h 0 (by decide)
  rw [memRead, memRead, h0, h 1 (by decide), h 2 (by decide), h 3 (by decide)]

/-- A field depends on its gate and on the four bytes of its window, and on nothing else of the inputs. -/
theorem fieldOut_congr {inp' : Inputs} (hgate : hasField k inp = hasField k inp')
    (hbytes : ∀ j, j < 4 → payByte inp (byteAddress k j) = payByte inp' (byteAddress k j)) :
    fieldOut k inp = fieldOut k inp' := by
  have hword : memRead inp (windowBase k) = memRead inp' (windowBase k) := memRead_congr hbytes
  have hwires : fieldWires k inp = fieldWires k inp' := by
    simp only [fieldWires, hword, hbytes 0, hbytes 1, hbytes 2, hbytes 3, Nat.reduceLT]
  simp only [fieldOut, hgate, hword, hwires]

end FieldOutputs

section ShownResults

variable (s : State) (k : FieldId)

@[simp] theorem State.invoked_result : s.invoked.result k = (fieldOut k s.inputs).result := by
  rw [State.result, State.invoked_get]

@[simp] theorem State.invoked_has : s.invoked.has k = (fieldOut k s.inputs).valid := by
  rw [State.has, State.invoked_get]

@[simp] theorem State.extract_result_same : (s.extract k).result k = (fieldOut k s.inputs).result := by
  rw [State.result, State.extract_get_same]

@[simp] theorem State.extract_has_same : (s.extract k).has k = (fieldOut k s.inputs).valid := by
  rw [State.has, State.extract_get_same]

@[simp] theorem State.clearFields_result : s.clearFields.result k = none := by
  rw [State.result, State.clearFields_get, FieldOut.absent]

@[simp] theorem State.clearFields_has : s.clearFields.has k = false := by
  rw [State.has, State.clearFields_get, FieldOut.absent]

variable {s k}

/-- An extraction whose gate holds (R89 to R91). -/
theorem State.extract_result_has_of_firstLen_le (hport : s.inputs.port = 1) (hlen : firstLen k ≤ s.inputs.len) :
    (s.extract k).result k = some (b2f (memRead s.inputs (windowBase k))) ∧ (s.extract k).has k = true := by
  rw [extract_result_same, extract_has_same, fieldOut_of_hasField ((hasField_iff k s.inputs).2 ⟨hport, hlen⟩)]
  exact ⟨rfl, rfl⟩

/-- An extraction of a payload too short for its field (R89 to R91). -/
theorem State.extract_result_has_of_len_lt (hlen : s.inputs.len < firstLen k) :
    (s.extract k).result k = none ∧ (s.extract k).has k = false := by
  rw [extract_result_same, extract_has_same, fieldOut_of_len_lt hlen]
  exact ⟨rfl, rfl⟩

/-- Below the first field's length an invocation leaves the empty result. -/
theorem State.invoked_of_len_lt_four (h : s.inputs.len < 4) : s.invoked = s.clearFields := by
  have habsent (k : FieldId) : fieldOut k s.inputs = .absent := fieldOut_of_len_lt (h.trans_le (four_le_firstLen k))
  simp only [invoked, clearFields, PerField.ofFn, habsent]

end ShownResults

/-- GW's first worked example: the bytes `00 00 80 3F` are 1.0. -/
theorem memRead_example_one : memRead (Inputs.ofBytes [0x00, 0x00, 0x80, 0x3F] 1) 0 = 0x3F800000 := by decide

theorem b2f_example_one : b2f 0x3F800000 = { s := 0, mag := 1 } :=
  (b2f_wordOf_of_ne_zero 0 (e := 127#8) 0 (by decide)).trans (by norm_num)

theorem b2f_example_two : b2f 0x40000000 = { s := 0, mag := 2 } :=
  (b2f_wordOf_of_ne_zero 0 (e := 128#8) 0 (by decide)).trans (by norm_num)

theorem b2f_example_minus_one : b2f 0xBF800000 = { s := 1, mag := 1 } :=
  (b2f_wordOf_of_ne_zero 1 (e := 127#8) 0 (by decide)).trans (by norm_num)

/-- The byte `40` followed by three zeros is 64 units of `2^-149`. -/
theorem b2f_example_padded : b2f 0x00000040 = { s := 0, mag := 2 ^ (-143 : Int) } :=
  (b2f_wordOf_zero 0 0x000040#23).trans (by norm_num)

/-- Settles O26: the gate is the window's own length, so every byte of the window is a presented one. -/
theorem energyInExtraction : Obligations.EnergyInExtraction := by
  refine ⟨rfl, fun s hport => ⟨_, exec_decodePay s .energyIn, fun hlen => ?_,
      State.extract_result_has_of_len_lt (k := .energyIn)⟩,
    memRead_example_one, b2f_example_one⟩
  obtain ⟨hresult, hhas⟩ := State.extract_result_has_of_firstLen_le (k := .energyIn) hport hlen
  exact ⟨hresult, hhas, fun j hj => payByte_of_lt_len _ (hj.trans_le hlen)⟩

/-- Settles O27: the gate is below the window's end, and the missing bytes read as zero. -/
theorem energyOutExtraction : Obligations.EnergyOutExtraction := by
  refine ⟨rfl, fun s hport => ⟨_, exec_decodePay s .energyOut, fun hlen => ?_,
      fun hlen => State.extract_result_has_of_len_lt (Nat.lt_succ_of_le hlen)⟩,
    by decide, b2f_example_two, by decide, b2f_example_padded⟩
  obtain ⟨hresult, hhas⟩ := State.extract_result_has_of_firstLen_le (k := .energyOut) hport hlen
  exact ⟨hresult, hhas, fun _ => payByte_of_len_le _, fun _ => payByte_of_lt_len _⟩

/-- The last window ends at index 12. -/
theorem byteAddress_lt_twelve (k : FieldId) {j : Nat} (h : j < 4) : byteAddress k j < 12 := by
  have hbase : windowBase k ≤ 8 := by cases k <;> decide
  rw [byteAddress]
  omega

/-- No field depends on payload bytes from index 12 on (R91, R96). -/
theorem fieldOut_of_agree_below_twelve (k : FieldId) {inp : Inputs} {pay : Memory}
    (h : ∀ i, i < 12 → pay.read i = inp.payload.read i) :
    fieldOut k { inp with payload := pay } = fieldOut k inp :=
  fieldOut_congr rfl fun _ hj => by simp only [payByte, h _ (byteAddress_lt_twelve k hj)]

/-- Settles O28: as for `energy_out`, and the window ends at index 12. -/
theorem powerExtraction : Obligations.PowerExtraction := by
  refine ⟨rfl, fun s hport => ⟨_, exec_decodePay s .power, fun hlen => ?_,
      fun hlen => State.extract_result_has_of_len_lt (Nat.lt_succ_of_le hlen)⟩,
    by decide, b2f_example_minus_one⟩
  obtain ⟨hresult, hhas⟩ := State.extract_result_has_of_firstLen_le (k := .power) hport hlen
  refine ⟨hresult, hhas, fun _ => payByte_of_len_le _, fun _ => payByte_of_lt_len _, fun pay' hpay =>
    ⟨_, exec_decodePay _ .power, ?_⟩⟩
  rw [State.extract_result_same, State.extract_result_same, State.presentInputs_inputs,
    fieldOut_of_agree_below_twelve .power hpay]

/-- Zero bytes written out after a payload read as the missing bytes do (R33). -/
theorem payByte_ofBytes_append_zeros (bytes : List Byte) (n : Nat) (port : Int) (i : Nat) :
    payByte (Inputs.ofBytes (bytes ++ List.replicate n 0x00#8) port) i = payByte (Inputs.ofBytes bytes port) i := by
  rw [payByte_ofBytes, payByte_ofBytes]
  by_cases h : i < bytes.length
  · exact List.getD_append _ _ _ _ h
  · rw [List.getD_append_right _ _ _ _ (not_lt.mp h), List.getD_eq_default _ _ (not_lt.mp h)]
    exact List.getElem?_getD_replicate_default_eq ..

/-- Settles O32: with and without its zeros the window has the same bytes, and the gate holds of both lengths. -/
theorem shortWindowsAreZeroPadded : Obligations.ShortWindowsAreZeroPadded := by
  intro s bytes k n _ hlen _
  have hshort : hasField k (Inputs.ofBytes bytes 1) = true := (hasField_iff ..).2 ⟨rfl, hlen⟩
  have hlong : hasField k (Inputs.ofBytes (bytes ++ List.replicate n 0x00#8) 1) = true :=
    (hasField_iff ..).2 ⟨rfl, hlen.trans (by simp [Inputs.ofBytes])⟩
  refine ⟨_, _, step_of_invoke (State.setQueue_queue ..), step_of_invoke (State.setQueue_queue ..), ?_, ?_, ?_⟩
  · rw [State.invoked_get, State.invoked_get]
    exact fieldOut_congr (hshort.trans hlong.symm) fun j _ => (payByte_ofBytes_append_zeros ..).symm
  · rw [State.invoked_has, State.presentInputs_inputs, fieldOut_of_hasField hshort]
  · rw [State.invoked_result, State.presentInputs_inputs, fieldOut_of_hasField hshort]

/-- Settles O35: the three extractions write the whole result, each field under its own gate. -/
theorem dispatchForPortOne : Obligations.DispatchForPortOne := by
  refine ⟨rfl, fun s hport => ⟨_, execDecP1_eq s, ?energyIn, ?energyOut, ?power, ?flags,
    ⟨_, _, rfl, rfl, execDecP1_eq s⟩, fun hlen => ?short⟩, fun s => ?worked⟩
  case energyIn | energyOut | power =>
    rw [State.invoked_result]
    exact fieldOut_result_of_port_one hport
  case flags =>
    intro k
    rw [State.invoked_has, State.invoked_result, fieldOut_valid]
  case short =>
    rw [State.invoked_of_len_lt_four hlen]
    exact ⟨s.clearFields_result, fun p => ⟨_, rfl, rfl⟩⟩
  case worked =>
    -- Four bytes open the gate of `energy_in` and no other.
    refine ⟨_, step_of_invoke (State.setQueue_queue ..), ?_, ?_, ?_⟩
    · rw [State.invoked_result]
      exact (fieldOut_result_of_port_one rfl).trans
        (congrArg some ((congrArg b2f memRead_example_one).trans b2f_example_one))
    · rw [State.invoked_result]
      exact fieldOut_result_of_port_one rfl
    · rw [State.invoked_result]
      exact fieldOut_result_of_port_one rfl

/-- Settles O36: `DEC.NONE` clears the fields, whatever is presented. -/
theorem dispatchForEveryOtherPort : Obligations.DispatchForEveryOtherPort := by
  refine ⟨fun s p hp => ⟨decodePort_of_ne hp, s.clearFields, rfl,
    fun k => ⟨s.clearFields_result k, s.clearFields_has k⟩, fun inp => ⟨_, rfl, rfl⟩⟩, fun s => ?_⟩
  exact (unrecognisedPortGivesTheEmptyMap _ _ [] (by decide) (State.setQueue_queue ..)).2

/-- The machine's window word is the contract's (R33, R34). -/
theorem memRead_ofBytes_toNat (bytes : List Byte) (port : Int) (a : Nat) :
    (memRead (Inputs.ofBytes bytes port) a).toNat = listWord bytes a := by
  rw [memRead_toNat, windowNat]
  simp only [payByte_ofBytes]
  rfl

/-- GW's three separate `if`s under the port test, one field at a time (R86). -/
theorem decodeContract_get (bytes : List Byte) (port : Int) (k : FieldId) : (decodeContract bytes port).get k
    = if port = 1 ∧ firstLen k ≤ bytes.length then some (gwValue (listWord bytes (windowBase k))) else none := by
  by_cases hport : port = 1
  · simp only [decodeContract, hport, if_true, true_and]
    cases k <;> rfl
  · simp only [decodeContract, hport, if_false, false_and]
    cases k <;> rfl

theorem fieldOut_result_ofBytes (bytes : List Byte) (port : Int) (k : FieldId) :
    (fieldOut k (Inputs.ofBytes bytes port)).result = (decodeContract bytes port).get k := by
  rw [fieldOut_result, decodeContract_get, b2f_eq_gwValue, memRead_ofBytes_toNat]
  rfl

/-- Settles O51: field by field, the gates are the contract's and the wires compute GW's formula. -/
theorem invocationMeetsTheDecodeContract : Obligations.InvocationMeetsTheDecodeContract := by
  intro s bytes port q hqueue
  refine ⟨_, step_of_invoke hqueue, PerField.ext_get fun k => ?_, rfl⟩
  rw [PerField.get_ofFn, State.invoked_result, State.presentInputs_inputs, fieldOut_result_ofBytes]

/-- Settles O55: an invocation computes every field anew, so a field whose gate fails is absent whatever was shown. -/
theorem resultIsProducedFresh : Obligations.ResultIsProducedFresh := by
  intro s bytes port q k hqueue _ hgate
  refine ⟨_, step_of_invoke hqueue, ?_⟩
  rw [State.invoked_result, State.presentInputs_inputs, fieldOut_result]
  exact if_neg hgate

end Sys2Proof.Machine

/-!
Exceptions (60_exceptions.md): nothing the block does faults or is refused.
-/
namespace Sys2Proof.Machine

/-- A step is the decoded operation evaluated on the fetched state, and no operation stops. -/
theorem exists_step_eq_next (s : State) : ∃ t, step s = .next t :=
  exists_exec_eq_next (decode (fetch s).1) (fetch s).2

/-- Settles O46: `exec_cases` lists every operation's outcome, and each is a next state; a step is one operation. -/
theorem everyStepAnswersANextState : Obligations.EveryStepAnswersANextState :=
  ⟨exists_step_eq_next, exists_exec_eq_next⟩

end Sys2Proof.Machine

/-!
Encodings, both ways (30_encoding.md): decoding and encoding are inverse to each other, over selectors and over bytes.
-/
namespace Sys2Proof

theorem decode_res_wordOf_zero (s : Sign) : decode (.res (wordOf s 0#8 0#23)) = .enc64Zero s := by
  simp [decode, decodeRes]

theorem decode_res_wordOf_of_frac_ne_zero (s : Sign) {frac : Frac} (h : frac ≠ 0#23) :
    decode (.res (wordOf s 0#8 frac)) = .enc64Sub s frac := by
  simp [decode, decodeRes, h]

theorem decode_res_wordOf_of_expo_ne_zero (s : Sign) {e : Expo} (frac : Frac) (h : e ≠ 0#8) :
    decode (.res (wordOf s e frac)) = .enc64Nrm s e frac := by
  simp [decode, decodeRes, h]

theorem exists_eq_wordOf (w : Word) : ∃ s e frac, w = wordOf s e frac :=
  ⟨signOf w, expoOf w, fracOf w, (wordOf_fields w).symm⟩

/-- The three cases of a word: a zero, a subnormal, and a word with exponent field not zero (R61). -/
theorem word_cases {P : Word → Prop} (zero : ∀ s, P (wordOf s 0#8 0#23))
    (sub : ∀ s frac, frac ≠ 0#23 → P (wordOf s 0#8 frac)) (nrm : ∀ s e frac, e ≠ 0#8 → P (wordOf s e frac))
    (w : Word) : P w := by
  obtain ⟨s, e, frac, rfl⟩ := exists_eq_wordOf w
  by_cases he : e = 0#8
  · subst he
    by_cases hfrac : frac = 0#23
    · exact hfrac ▸ zero s
    · exact sub s frac hfrac
  · exact nrm s e frac he

/-- The selector condition of each row is the one its format's decoder tests (R60, R61). -/
theorem decode_encode {i : Instr} (h : i.wf = true) : decode (encode i) = i := by
  cases i with
  | decP1 | fldEnergyIn | fldEnergyOut | fldPower => rfl
  | decNone p => exact decodePort_of_ne (bne_iff_ne.mp h)
  | b2fSub s frac => exact decode_wordOf_zero s frac
  | b2fNrm s e frac => exact decode_wordOf_of_ne_zero s frac (bne_iff_ne.mp h)
  | enc64Zero s => exact decode_res_wordOf_zero s
  | enc64Sub s frac => exact decode_res_wordOf_of_frac_ne_zero s (bne_iff_ne.mp h)
  | enc64Nrm s e frac => exact decode_res_wordOf_of_expo_ne_zero s frac (bne_iff_ne.mp h)

/-- The fields that a branch of the decoder drops are the zeros that the encoder puts back (R53, R61). -/
theorem encode_decode (sel : Selector) : encode (decode sel) = sel := by
  cases sel with
  | port p =>
    by_cases hp : p = 1
    · rw [hp]; rfl
    · rw [decode, decodePort_of_ne hp, encode]
  | pay k => cases k <;> rfl
  | w32 w =>
    obtain ⟨s, e, frac, rfl⟩ := exists_eq_wordOf w
    by_cases he : e = 0#8
    · rw [he, decode_wordOf_zero, encode]
    · rw [decode_wordOf_of_ne_zero s frac he, encode]
  | res w =>
    induction w using word_cases with
    | zero s => rw [decode_res_wordOf_zero, encode]
    | sub s frac hfrac => rw [decode_res_wordOf_of_frac_ne_zero s hfrac, encode]
    | nrm s e frac he => rw [decode_res_wordOf_of_expo_ne_zero s frac he, encode]

theorem encode_format (i : Instr) : (encode i).format = i.format := by cases i <;> rfl

theorem decode_format (sel : Selector) : (decode sel).format = sel.format := by
  rw [← encode_format, encode_decode]

/-- Settles O3: encoding gives the selector back, and with it the format. -/
theorem encodeUndoesDecode : Obligations.EncodeUndoesDecode := fun sel =>
  ⟨encode_decode sel, decode_wf sel, decode_format sel⟩

/-- A word is put together again from its bytes (R32, R35). -/
theorem wordOfBytes_byteOfWord (w : Word) :
    wordOfBytes (byteOfWord w 0) (byteOfWord w 1) (byteOfWord w 2) (byteOfWord w 3) = w := by
  have hw := w.isLt
  apply BitVec.eq_of_toNat_eq
  simp only [wordOfBytes_toNat, byteOfWord_toNat]
  omega

theorem readWord_bytesOfWord (f : Format) (w : Word) : readWord f (bytesOfWord w) = .ok w :=
  congrArg Except.ok (wordOfBytes_byteOfWord w)

theorem toNat_ofInt_of_lt {p : Int} (h0 : 0 ≤ p) (h : p < 256) : ((BitVec.ofInt 8 p).toNat : Int) = p := by
  rw [BitVec.toNat_ofInt]
  omega

/-- The bytes of a selector are read as that selector in its own format. -/
theorem readSelector_bytes {sel : Selector} {bs : List Byte} (h : sel.bytes = some bs) :
    readSelector sel.format bs = .ok sel := by
  cases sel with
  | port p =>
    obtain ⟨⟨h0, h256⟩, rfl⟩ : (0 ≤ p ∧ p < 256) ∧ [BitVec.ofInt 8 p] = bs := by
      simpa [Selector.bytes] using h
    exact congrArg (Except.ok ∘ Selector.port) (toNat_ofInt_of_lt h0 h256)
  | pay k => cases h
  | w32 w =>
    cases h
    exact congrArg (Except.map Selector.w32) (readWord_bytesOfWord .w32 w)
  | res w =>
    cases h
    exact congrArg (Except.map Selector.res) (readWord_bytesOfWord .res w)

theorem decodeBytes_encodeBytes {i : Instr} (hwf : i.wf = true) {bs : List Byte} (h : encodeBytes i = some bs) :
    decodeBytes i.format bs = .ok i := by
  rw [decodeBytes, ← encode_format, readSelector_bytes h, Except.map, decode_encode hwf]

theorem exists_bytes_of_word_format {sel : Selector} (h : sel.format = .w32 ∨ sel.format = .res) :
    ∃ bs, bs.length = 4 ∧ sel.bytes = some bs := by
  cases sel with
  | port p | pay k => simp [Selector.format] at h
  | w32 w | res w => exact ⟨bytesOfWord w, rfl, rfl⟩

/-- Settles O2: decoding undoes encoding on selectors, and a selector's bytes are read as that selector. -/
theorem decodeUndoesEncode : Obligations.DecodeUndoesEncode := by
  intro i hwf
  refine ⟨decode_encode hwf, fun bs => decodeBytes_encodeBytes hwf, fun hformat => ?words, ?one, ?other⟩
  case words => exact exists_bytes_of_word_format (by rwa [encode_format])
  case one =>
    rintro rfl
    decide
  case other =>
    rintro p rfl h0 h256
    exact ⟨BitVec.ofInt 8 p, if_pos ⟨h0, h256⟩, toNat_ofInt_of_lt h0 h256⟩

/-- Settles O1: closed facts, by running the decoder. -/
theorem sampleWordsDecodeToTheirOperations : Obligations.SampleWordsDecodeToTheirOperations := by
  unfold Obligations.SampleWordsDecodeToTheirOperations
  decide

theorem decodePort_eq_decP1_iff {p : Int} : decodePort p = .decP1 ↔ p = 1 := by
  by_cases h : p = 1
  · simp [decodePort, h]
  · simp [decodePort, h]

/-- At least one port pin is needed to carry the value 1 (R6). -/
theorem portPins_eq_one_iff {w : Nat} (hw : 1 ≤ w) (x : BitVec w) : (x.toNat : Int) = 1 ↔ x = 1#w := by
  have hpow : 1 < 2 ^ w := Nat.one_lt_two_pow (by omega)
  rw [← BitVec.toNat_inj, BitVec.toNat_ofNat, Nat.mod_eq_of_lt hpow]
  exact Nat.cast_eq_one

theorem eq_one_iff_getLsbD {w : Nat} (hw : 1 ≤ w) (x : BitVec w) :
    x = 1#w ↔ x.getLsbD 0 = true ∧ ∀ i, 0 < i → x.getLsbD i = false := by
  have hone (i : Nat) : (1#w).getLsbD i = decide (i = 0) := by
    simp [BitVec.getLsbD_one, show 0 < w by omega]
  constructor
  · rintro rfl
    exact ⟨hone 0, fun i hi => (hone i).trans (decide_eq_false hi.ne')⟩
  · rintro ⟨hzero, hrest⟩
    refine BitVec.eq_of_getLsbD_eq fun i _ => ?_
    rcases i.eq_zero_or_pos with rfl | hi
    · rw [hzero, hone, decide_eq_true rfl]
    · rw [hrest i hi, hone, decide_eq_false hi.ne']

end Sys2Proof

namespace Sys2Proof.Machine

/-- Settles O7: the number on the port pins is 1 exactly if bit 0 is set alone. -/
theorem portTestIsEqualityWithOne : Obligations.PortTestIsEqualityWithOne := by
  refine ⟨fun p => rfl, fun lenW portW hlegal p => ?_⟩
  calc decode (.port (Inputs.ofPins p).port) = .decP1 ↔ (p.portI.toNat : Int) = 1 := decodePort_eq_decP1_iff
    _ ↔ p.portI = 1#portW := portPins_eq_one_iff hlegal.2 p.portI
    _ ↔ _ := eq_one_iff_getLsbD hlegal.2 p.portI

end Sys2Proof.Machine

/-!
The decoded value as a number (40_float_reconstruction.md section 4): the closed form, and the magnitude as a strictly
increasing function of the word's low 31 bits.
-/
namespace Sys2Proof.Machine

/-- The magnitude that a floating-point pattern `n` without its sign bit stands for, when `p` bits are fraction and the
bits above them the exponent, in units that make it a natural number: `2^-150` for binary32, `2^-1075` for binary64. -/
def magUnits (p n : Nat) : Nat :=
  if n / 2 ^ p = 0 then 2 * (n % 2 ^ p) else (n % 2 ^ p + 2 ^ p) * 2 ^ (n / 2 ^ p)

section MagUnits

variable {p n : Nat}

theorem magUnits_of_lt (h : n < 2 ^ p) : magUnits p n = 2 * n := by
  rw [magUnits, if_pos (Nat.div_eq_of_lt h), Nat.mod_eq_of_lt h]

theorem magUnits_of_le (h : 2 ^ p ≤ n) : magUnits p n = (n % 2 ^ p + 2 ^ p) * 2 ^ (n / 2 ^ p) :=
  if_neg (Nat.div_pos h (by positivity)).ne'

/-- The magnitudes of one exponent end below the first magnitude of the next. -/
theorem magUnits_lt (p n : Nat) : magUnits p n < 2 ^ p * 2 ^ (n / 2 ^ p + 1) := by
  have hfrac : n % 2 ^ p < 2 ^ p := Nat.mod_lt _ (by positivity)
  rcases lt_or_ge n (2 ^ p) with h | h
  · rw [magUnits_of_lt h, Nat.div_eq_of_lt h]
    omega
  · rw [magUnits_of_le h, pow_succ', ← mul_assoc]
    exact Nat.mul_lt_mul_of_pos_right (by omega) (by positivity)

theorem le_magUnits (h : 2 ^ p ≤ n) : 2 ^ p * 2 ^ (n / 2 ^ p) ≤ magUnits p n := by
  rw [magUnits_of_le h]
  exact Nat.mul_le_mul_right _ (Nat.le_add_left _ _)

/-- Of two patterns the one with the larger exponent is the larger number, and with equal exponents the one with the
larger fraction. -/
theorem strictMono_magUnits (p : Nat) : StrictMono (magUnits p) := by
  intro n n' hlt
  rcases (Nat.div_le_div_right (c := 2 ^ p) hlt.le).lt_or_eq with hexpo | hexpo
  · have hn' : 2 ^ p ≤ n' := (Nat.div_pos_iff.mp (Nat.zero_lt_of_lt hexpo)).2
    calc magUnits p n < 2 ^ p * 2 ^ (n / 2 ^ p + 1) := magUnits_lt p n
      _ ≤ 2 ^ p * 2 ^ (n' / 2 ^ p) := Nat.mul_le_mul_left _ (Nat.pow_le_pow_right two_pos hexpo)
      _ ≤ magUnits p n' := le_magUnits hn'
  · have hfrac : n % 2 ^ p < n' % 2 ^ p := by
      have hn := Nat.div_add_mod n (2 ^ p)
      have hn' := Nat.div_add_mod n' (2 ^ p)
      rw [hexpo] at hn
      omega
    rw [magUnits, magUnits, hexpo]
    split
    · omega
    · exact Nat.mul_lt_mul_of_pos_right (by omega) (by positivity)

end MagUnits

theorem toNat_ne_zero {w : Nat} {x : BitVec w} (h : x ≠ 0#w) : x.toNat ≠ 0 := by
  simpa [← BitVec.toNat_inj] using h

/-- The word without its sign bit, as a number. -/
def lowBits (w : Word) : Nat := (w.extractLsb' 0 31).toNat

section LowBits

variable (w : Word)

theorem lowBits_eq : lowBits w = w.toNat % 2 ^ 31 := by
  simp [lowBits, BitVec.extractLsb'_toNat]

theorem lowBits_eq_fields : lowBits w = 2 ^ 23 * (expoOf w).toNat + (fracOf w).toNat := by
  rw [lowBits_eq, expoOf_toNat, fracOf_toNat]
  omega

theorem eq_of_signOf_lowBits {v w : Word} (hs : signOf v = signOf w) (h : lowBits v = lowBits w) : v = w := by
  have hsign : v.toNat / 2 ^ 31 = w.toNat / 2 ^ 31 := by rw [← signOf_toNat, ← signOf_toNat, hs]
  rw [lowBits_eq, lowBits_eq] at h
  apply BitVec.eq_of_toNat_eq
  omega

/-- The mantissa of a word shifted by its exponent field is the magnitude in units of `2^-150`. -/
theorem magUnits_lowBits : magUnits 23 (lowBits w) = (recon w).m.toNat * 2 ^ (expoOf w).toNat := by
  have hm : (recon w).m.toNat = if expoOf w = 0#8 then 2 * (fracOf w).toNat else (fracOf w).toNat + 2 ^ 23 := by
    simpa using (recon_ok w).mantissa
  have hlow := lowBits_eq_fields w
  have hfrac := (fracOf w).isLt
  rw [hm, magUnits, show lowBits w / 2 ^ 23 = (expoOf w).toNat by omega,
    show lowBits w % 2 ^ 23 = (fracOf w).toNat by omega]
  by_cases he : expoOf w = 0#8
  · simp [he]
  · rw [if_neg he, if_neg (toNat_ne_zero he)]

theorem b2f_eq_magUnits :
    b2f w = { s := signOf w, mag := (magUnits 23 (lowBits w) : Rat) * 2 ^ (-150 : Int) } := by
  rw [b2f_eq_mul_zpow, magUnits_lowBits, recon_x, sub_eq_add_neg, zpow_add₀ two_ne_zero, zpow_natCast, Nat.cast_mul,
    Nat.cast_pow, Nat.cast_two, mul_assoc]

theorem b2f_s : (b2f w).s = signOf w := congrArg DecodedValue.s (b2f_eq_magUnits w)

theorem b2f_mag : (b2f w).mag = (magUnits 23 (lowBits w) : Rat) * 2 ^ (-150 : Int) :=
  congrArg DecodedValue.mag (b2f_eq_magUnits w)

variable {v w : Word}

theorem b2f_mag_lt_iff : (b2f v).mag < (b2f w).mag ↔ lowBits v < lowBits w := by
  have hunit : (0 : Rat) < 2 ^ (-150 : Int) := by positivity
  rw [b2f_mag, b2f_mag, mul_lt_mul_iff_left₀ hunit, Nat.cast_lt, (strictMono_magUnits 23).lt_iff_lt]

theorem b2f_mag_le_iff : (b2f v).mag ≤ (b2f w).mag ↔ lowBits v ≤ lowBits w := by
  rw [← not_lt, b2f_mag_lt_iff, not_lt]

theorem b2f_mag_eq_iff : (b2f v).mag = (b2f w).mag ↔ lowBits v = lowBits w := by
  rw [le_antisymm_iff, b2f_mag_le_iff, b2f_mag_le_iff, le_antisymm_iff]

end LowBits

/-- Settles O22: the magnitude is the strictly increasing `magUnits` of the low 31 bits, scaled. -/
theorem magnitudeIncreasesWithTheLow31Bits : Obligations.MagnitudeIncreasesWithTheLow31Bits :=
  fun _ _ => b2f_mag_lt_iff

theorem b2f_injective {v w : Word} (h : b2f v = b2f w) : v = w := by
  refine eq_of_signOf_lowBits ?_ (b2f_mag_eq_iff.mp (congrArg DecodedValue.mag h))
  rw [← b2f_s, ← b2f_s, h]

/-- Settles O23: the value tells the sign, and the magnitude the low 31 bits. -/
theorem reconstructionIsInjective : Obligations.ReconstructionIsInjective := fun _ _ => b2f_injective

theorem b2f_plus_zero : b2f 0x00000000 = { s := 0, mag := 0 } := (b2f_wordOf_zero 0 0#23).trans (by norm_num)

theorem b2f_minus_zero : b2f 0x80000000 = { s := 1, mag := 0 } := (b2f_wordOf_zero 1 0#23).trans (by norm_num)

theorem lowBits_eq_zero_iff {w : Word} : lowBits w = 0 ↔ w = 0x00000000 ∨ w = 0x80000000 := by
  have hw := w.isLt
  rw [lowBits_eq, ← BitVec.toNat_inj, ← BitVec.toNat_inj]
  simp only [BitVec.ofNat_eq_ofNat, BitVec.toNat_ofNat]
  omega

/-- Settles O21: the magnitude is that of `+0.0` for the words with its low 31 bits. -/
theorem zeroComesFromTheZeroWordsOnly : Obligations.ZeroComesFromTheZeroWordsOnly := by
  refine ⟨fun w => ?_, b2f_plus_zero, b2f_minus_zero, fun h => absurd (b2f_injective h) (by decide)⟩
  have hzero : (b2f 0x00000000).mag = 0 := congrArg DecodedValue.mag b2f_plus_zero
  rw [← hzero, b2f_mag_eq_iff]
  exact lowBits_eq_zero_iff

/-- Settles O20: each arm in the form with the point before the fraction. -/
theorem valueIsTheIeeeClosedForm : Obligations.ValueIsTheIeeeClosedForm := by
  intro w
  obtain ⟨s, e, frac, rfl⟩ := exists_eq_wordOf w
  have hs : BitVec.ofNat 1 (signNat (wordOf s e frac).toNat) = s := by
    rw [signNat, ← signOf_toNat, BitVec.ofNat_toNat, BitVec.setWidth_eq, signOf_wordOf]
  have he : expoNat (wordOf s e frac).toNat = e.toNat := by rw [expoNat, ← expoOf_toNat, expoOf_wordOf]
  have hfrac : fracNat (wordOf s e frac).toNat = frac.toNat := by rw [fracNat, ← fracOf_toNat, fracOf_wordOf]
  rw [ieeeValue, hs, he, hfrac]
  by_cases hzero : e = 0#8
  · subst hzero
    rw [b2f_wordOf_zero, if_pos (BitVec.toNat_ofNat 0 8)]
    norm_num
    ring
  · rw [b2f_wordOf_of_ne_zero s frac hzero, if_neg (toNat_ne_zero hzero)]

theorem b2f_mag_nonneg (w : Word) : 0 ≤ (b2f w).mag := by
  rw [b2f_mag]
  positivity

/-- The largest magnitude of all is that of the word whose low 31 bits are all ones. -/
theorem b2f_mag_le_largest (w : Word) : (b2f w).mag ≤ (2 ^ 24 - 1) * 2 ^ (105 : Int) := by
  have hlow : lowBits w ≤ lowBits 0x7FFFFFFF := Nat.le_of_lt_succ (BitVec.isLt _)
  calc (b2f w).mag ≤ (b2f 0x7FFFFFFF).mag := b2f_mag_le_iff.mpr hlow
    _ = (2 ^ 24 - 1) * 2 ^ (105 : Int) :=
      (congrArg DecodedValue.mag (b2f_wordOf_all_ones 0 0x7FFFFF#23)).trans (by norm_num)

/-- Below the all-ones exponent the largest magnitude is IEEE's largest finite one. -/
theorem b2f_mag_le_of_expoOf_ne {w : Word} (h : expoOf w ≠ 255#8) : (b2f w).mag ≤ (2 ^ 24 - 1) * 2 ^ (104 : Int) := by
  have he : (expoOf w).toNat ≠ 255 := fun h255 => h (BitVec.eq_of_toNat_eq h255)
  have hlow : lowBits w ≤ lowBits 0x7F7FFFFF := by
    have hexpo := (expoOf w).isLt
    have hfrac := (fracOf w).isLt
    have hmax : lowBits 0x7F7FFFFF = 2139095039 := by decide
    rw [hmax, lowBits_eq_fields]
    omega
  calc (b2f w).mag ≤ (b2f 0x7F7FFFFF).mag := b2f_mag_le_iff.mpr hlow
    _ = (2 ^ 24 - 1) * 2 ^ (104 : Int) :=
      (congrArg DecodedValue.mag (b2f_wordOf_of_ne_zero 0 (e := 254#8) 0x7FFFFF#23 (by decide))).trans (by norm_num)

/-- Settles O24: the bounds of each arm, and the largest words of each kind. -/
theorem reconstructionRanges : Obligations.ReconstructionRanges := by
  intro w
  have hlargest := b2f_mag_le_largest w
  obtain ⟨s, e, frac, rfl⟩ := exists_eq_wordOf w
  rw [expoOf_wordOf]
  refine ⟨b2f_mag_nonneg _, hlargest.trans_eq (by norm_num), ?sub, ?nrm, fun _ hne => ?finite, ?allOnes⟩
  case sub =>
    rintro rfl
    have heven : (mantSub frac).toNat % 2 = 0 := by rw [mantSub_toNat, Nat.mul_mod_right]
    have hfrac := frac.isLt
    rw [recon_wordOf_zero, b2f_wordOf_zero]
    exact ⟨rfl, heven, mantSub_toNat_le frac, frac.toNat, by omega, rfl⟩
  case nrm =>
    intro he
    have hpos := toNat_ne_zero he
    have hlt := e.isLt
    have hm : (recon (wordOf s e frac)).m.toNat < 2 ^ 24 := BitVec.isLt _
    rw [recon_x, expoOf_wordOf, b2f, recon_wordOf_of_ne_zero s frac he] at *
    exact ⟨by omega, by omega, le_mantNrm_toNat frac, by omega, le_reconNrm_mag s frac he⟩
  case finite => exact b2f_mag_le_of_expoOf_ne (by rwa [expoOf_wordOf])
  case allOnes =>
    rintro rfl
    rw [b2f, recon_wordOf_all_ones]
    exact le_reconNrm_mag_all_ones s frac

end Sys2Proof.Machine

/-!
The output patterns (42_result_output.md): their fields, the number they are read as, and that no two patterns are read
as the same number.
-/
namespace Sys2Proof.Machine

/-- The pattern with the given sign, exponent and fraction (R102). -/
def codeOf (s : Sign) (e : BitVec 11) (f : BitVec 52) : Code := s ++ (e ++ f)

section CodeFields

variable (s : Sign) (e : BitVec 11) (f : BitVec 52) (c : Code)

@[simp] theorem codeOf_sign : (codeOf s e f).extractLsb' 63 1 = s := BitVec.extractLsb'_append_eq_left

@[simp] theorem codeOf_expo : (codeOf s e f).extractLsb' 52 11 = e :=
  (BitVec.extractLsb'_append_eq_of_add_le (by decide)).trans BitVec.extractLsb'_append_eq_left

/-- A slice of the fraction bits is a slice of the fraction. -/
theorem codeOf_extractLsb'_of_le {start len : Nat} (h : start + len ≤ 52) :
    (codeOf s e f).extractLsb' start len = f.extractLsb' start len :=
  (BitVec.extractLsb'_append_eq_of_add_le (h.trans (by decide))).trans (BitVec.extractLsb'_append_eq_of_add_le h)

@[simp] theorem codeOf_frac : (codeOf s e f).extractLsb' 0 52 = f :=
  (codeOf_extractLsb'_of_le s e f le_rfl).trans BitVec.extractLsb'_eq_self

theorem exists_eq_codeOf : ∃ s e f, c = codeOf s e f :=
  ⟨c.extractLsb' 63 1, c.extractLsb' 52 11, c.extractLsb' 0 52, by
    have hlow : c.extractLsb' 52 11 ++ c.extractLsb' 0 52 = c.extractLsb' 0 63 :=
      BitVec.extractLsb'_append_extractLsb'_eq_extractLsb' rfl
    have hall : c.extractLsb' 63 1 ++ c.extractLsb' 0 63 = c.extractLsb' 0 64 :=
      BitVec.extractLsb'_append_extractLsb'_eq_extractLsb' rfl
    rw [codeOf, hlow, hall, BitVec.extractLsb'_eq_self]⟩

/-- The reading of a pattern by its fields (R102). -/
theorem readBinary64_codeOf : readBinary64 (codeOf s e f) =
    if e.toNat = 0 ∧ f.toNat = 0 then some { s := s, mag := 0 }
    else if 1 ≤ e.toNat ∧ e.toNat ≤ 2046 then
      some { s := s, mag := (1 + (f.toNat : Rat) / 2 ^ 52) * 2 ^ ((e.toNat : Int) - 1023) }
    else none := by
  have hs : BitVec.ofNat 1 ((codeOf s e f).toNat / 2 ^ 63) = s := by
    rw [← Nat.shiftRight_eq_div_pow]
    exact codeOf_sign s e f
  have he : (codeOf s e f).toNat / 2 ^ 52 % 2 ^ 11 = e.toNat := by
    rw [← Nat.shiftRight_eq_div_pow, ← BitVec.extractLsb'_toNat, codeOf_expo]
  have hf : (codeOf s e f).toNat % 2 ^ 52 = f.toNat := by
    rw [← Nat.shiftRight_zero (n := (codeOf s e f).toNat), ← BitVec.extractLsb'_toNat, codeOf_frac]
  simp only [readBinary64, hs, he, hf]

end CodeFields

/-- Every pattern with a reading is a zero or has an exponent from 1 to 2046 (R102). -/
theorem readBinary64_codeOf_cases {s : Sign} {e : BitVec 11} {f : BitVec 52} {v : DecodedValue}
    (h : readBinary64 (codeOf s e f) = some v) :
    (e.toNat = 0 ∧ f.toNat = 0 ∧ v = { s := s, mag := 0 }) ∨
    (1 ≤ e.toNat ∧ e.toNat ≤ 2046 ∧
      v = { s := s, mag := (1 + (f.toNat : Rat) / 2 ^ 52) * 2 ^ ((e.toNat : Int) - 1023) }) := by
  rw [readBinary64_codeOf] at h
  split at h
  · rename_i hzero
    exact .inl ⟨hzero.1, hzero.2, (Option.some.inj h).symm⟩
  · split at h
    · rename_i hexpo
      exact .inr ⟨hexpo.1, hexpo.2, (Option.some.inj h).symm⟩
    · cases h

/-- A reading as sign and magnitude, in units of `2^-1075`. -/
theorem readBinary64_codeOf_eq_magUnits {s : Sign} {e : BitVec 11} {f : BitVec 52} {v : DecodedValue}
    (h : readBinary64 (codeOf s e f) = some v) :
    v = { s := s, mag := (magUnits 52 (2 ^ 52 * e.toNat + f.toNat) : Rat) * 2 ^ (-1075 : Int) } := by
  obtain ⟨he, hf, rfl⟩ | ⟨he, -, rfl⟩ := readBinary64_codeOf_cases h
  · rw [he, hf, magUnits_of_lt (by decide), mul_zero, add_zero, mul_zero, Nat.cast_zero, zero_mul]
  · have hlt := f.isLt
    have hdiv : (2 ^ 52 * e.toNat + f.toNat) / 2 ^ 52 = e.toNat := by omega
    have hmod : (2 ^ 52 * e.toNat + f.toNat) % 2 ^ 52 = f.toNat := by omega
    have hscale : (2 : Rat) ^ ((e.toNat : Int) - 1023) = 2 ^ e.toNat * 2 ^ 52 * 2 ^ (-1075 : Int) := by
      have hexpo : (e.toNat : Int) - 1023 = e.toNat + (52 : Nat) + (-1075) := by omega
      rw [hexpo, zpow_add₀ two_ne_zero, zpow_add₀ two_ne_zero, zpow_natCast, zpow_natCast]
    have hmant : (1 + (f.toNat : Rat) / 2 ^ 52) * (2 ^ e.toNat * 2 ^ 52)
        = (((f.toNat + 2 ^ 52) * 2 ^ e.toNat : Nat) : Rat) := by
      push_cast
      ring
    rw [magUnits_of_le (by omega), hdiv, hmod, hscale, ← mul_assoc, hmant]

/-- No two patterns are read as the same value. -/
theorem readBinary64_injective {c c' : Code} {v : DecodedValue} (h : readBinary64 c = some v)
    (h' : readBinary64 c' = some v) : c = c' := by
  obtain ⟨s, e, f, rfl⟩ := exists_eq_codeOf c
  obtain ⟨s', e', f', rfl⟩ := exists_eq_codeOf c'
  have hv := (readBinary64_codeOf_eq_magUnits h).symm.trans (readBinary64_codeOf_eq_magUnits h')
  obtain ⟨hs, hmag⟩ := DecodedValue.mk.inj hv
  have hunits := (strictMono_magUnits 52).injective
    (Nat.cast_injective (mul_right_cancel₀ (zpow_ne_zero _ two_ne_zero) hmag))
  have hf := f.isLt
  have hf' := f'.isLt
  have he : e = e' := BitVec.eq_of_toNat_eq (by omega)
  have hfrac : f = f' := BitVec.eq_of_toNat_eq (by omega)
  rw [hs, he, hfrac]

/-! ### The patterns of `ENC64` -/

theorem lt_two_pow_msbIndex (frac : Frac) : frac.toNat < 2 ^ (msbIndex frac + 1) := Nat.lt_log2_self

section SubnormalFraction

variable {frac : Frac} (h : frac ≠ 0#23)
include h

theorem two_pow_msbIndex_le : 2 ^ msbIndex frac ≤ frac.toNat := Nat.log2_self_le (toNat_ne_zero h)

theorem msbIndex_le : msbIndex frac ≤ 22 := by
  have hlt : msbIndex frac < 23 := (Nat.log2_lt (toNat_ne_zero h)).mpr frac.isLt
  omega

theorem subExpo_toNat : (BitVec.ofNat 11 (msbIndex frac + 874)).toNat = msbIndex frac + 874 := by
  have hk := msbIndex_le h
  rw [BitVec.toNat_ofNat]
  omega

/-- Left-aligning moves the leading 1 out of the 52 bits (R105). -/
theorem subFraction_toNat : (frac.setWidth 52 <<< (52 - msbIndex frac)).toNat
    = (frac.toNat - 2 ^ msbIndex frac) * 2 ^ (52 - msbIndex frac) := by
  have hk := msbIndex_le h
  obtain ⟨d, hd⟩ := Nat.exists_eq_add_of_le (two_pow_msbIndex_le h)
  have hlt := lt_two_pow_msbIndex frac
  have hpow : 2 ^ msbIndex frac * 2 ^ (52 - msbIndex frac) = 2 ^ 52 := by
    rw [← pow_add, Nat.add_sub_cancel' (by omega)]
  have hrest : d * 2 ^ (52 - msbIndex frac) < 2 ^ 52 := by
    rw [← hpow]
    exact Nat.mul_lt_mul_of_pos_right (by omega) (by positivity)
  rw [BitVec.toNat_shiftLeft, BitVec.toNat_setWidth, Nat.mod_eq_of_lt (frac.isLt.trans (by decide)),
    Nat.shiftLeft_eq, hd, Nat.add_sub_cancel_left, Nat.add_mul, hpow, Nat.add_mod_left, Nat.mod_eq_of_lt hrest]

end SubnormalFraction

theorem nrmExpo_toNat (e : Expo) : (BitVec.ofNat 11 (e.toNat + 896)).toNat = e.toNat + 896 := by
  have he := e.isLt
  rw [BitVec.toNat_ofNat]
  omega

theorem nrmFraction_toNat (frac : Frac) : (frac.setWidth 52 <<< 29).toNat = frac.toNat * 2 ^ 29 := by
  have hfrac := frac.isLt
  rw [BitVec.toNat_shiftLeft, BitVec.toNat_setWidth, Nat.shiftLeft_eq]
  omega

section Patterns

variable (s : Sign)

theorem codeZero_eq : codeZero s = codeOf s 0#11 0#52 := rfl

theorem codeSub_eq (frac : Frac) : codeSub s frac
    = codeOf s (BitVec.ofNat 11 (msbIndex frac + 874)) (frac.setWidth 52 <<< (52 - msbIndex frac)) := rfl

theorem codeNrm_eq (e : Expo) (frac : Frac) :
    codeNrm s e frac = codeOf s (BitVec.ofNat 11 (e.toNat + 896)) (frac.setWidth 52 <<< 29) := rfl

theorem enc64_wordOf_zero : enc64 (wordOf s 0#8 0#23) = codeZero s := by
  simp [enc64]

theorem enc64_wordOf_of_frac_ne_zero {frac : Frac} (h : frac ≠ 0#23) :
    enc64 (wordOf s 0#8 frac) = codeSub s frac := by
  simp [enc64, h]

theorem enc64_wordOf_of_expo_ne_zero {e : Expo} (frac : Frac) (h : e ≠ 0#8) :
    enc64 (wordOf s e frac) = codeNrm s e frac := by
  simp [enc64, h]

theorem readBinary64_codeZero : readBinary64 (codeZero s) = some { s := s, mag := 0 } := by
  rw [codeZero_eq, readBinary64_codeOf, if_pos ⟨rfl, rfl⟩]

/-- Normalising a subnormal moves its leading 1 before the point and takes the shift from the exponent (R105). -/
theorem readBinary64_codeSub {frac : Frac} (h : frac ≠ 0#23) :
    readBinary64 (codeSub s frac) = some { s := s, mag := (frac.toNat : Rat) * 2 ^ (-149 : Int) } := by
  have hk := msbIndex_le h
  have hscale : (2 : Rat) ^ (((msbIndex frac + 874 : Nat) : Int) - 1023) = 2 ^ msbIndex frac * 2 ^ (-149 : Int) := by
    have hexpo : ((msbIndex frac + 874 : Nat) : Int) - 1023 = msbIndex frac + (-149) := by omega
    rw [hexpo, zpow_add₀ two_ne_zero, zpow_natCast]
  have hpow : (2 : Rat) ^ 52 = 2 ^ msbIndex frac * 2 ^ (52 - msbIndex frac) := by
    rw [← pow_add, Nat.add_sub_cancel' (by omega)]
  have hmag : (1 + (((frac.toNat - 2 ^ msbIndex frac) * 2 ^ (52 - msbIndex frac) : Nat) : Rat) / 2 ^ 52)
      * 2 ^ (((msbIndex frac + 874 : Nat) : Int) - 1023) = (frac.toNat : Rat) * 2 ^ (-149 : Int) := by
    rw [hscale, hpow, Nat.cast_mul, Nat.cast_sub (two_pow_msbIndex_le h), Nat.cast_pow, Nat.cast_pow, Nat.cast_two]
    field_simp
    ring
  rw [codeSub_eq, readBinary64_codeOf, subExpo_toNat h, subFraction_toNat h, if_neg (by omega), if_pos (by omega),
    hmag]

/-- Rebiasing the exponent changes no number (R104). -/
theorem readBinary64_codeNrm {e : Expo} (frac : Frac) : readBinary64 (codeNrm s e frac)
    = some { s := s, mag := (1 + (frac.toNat : Rat) / 2 ^ 23) * 2 ^ ((e.toNat : Int) - 127) } := by
  have he := e.isLt
  have hexpo : ((e.toNat + 896 : Nat) : Int) - 1023 = e.toNat - 127 := by omega
  have hfrac : ((frac.toNat * 2 ^ 29 : Nat) : Rat) / 2 ^ 52 = (frac.toNat : Rat) / 2 ^ 23 := by
    push_cast
    ring
  rw [codeNrm_eq, readBinary64_codeOf, nrmExpo_toNat, nrmFraction_toNat, if_neg (by omega), if_pos (by omega), hexpo,
    hfrac]

end Patterns

/-- Settles O42: in each case of `ENC64` the pattern is read as the value of the arm. -/
theorem patternStandsForTheDecodedValue : Obligations.PatternStandsForTheDecodedValue := by
  intro w
  induction w using word_cases with
  | zero s =>
    rw [enc64_wordOf_zero, readBinary64_codeZero, b2f_wordOf_zero, BitVec.toNat_ofNat, Nat.zero_mod, Nat.cast_zero,
      zero_mul]
  | sub s frac hfrac => rw [enc64_wordOf_of_frac_ne_zero s hfrac, readBinary64_codeSub s hfrac, b2f_wordOf_zero]
  | nrm s e frac he =>
    rw [enc64_wordOf_of_expo_ne_zero s frac he, readBinary64_codeNrm, b2f_wordOf_of_ne_zero s frac he]

theorem enc64_injective {v w : Word} (h : enc64 v = enc64 w) : v = w := by
  apply b2f_injective
  rw [← Option.some_inj, ← patternStandsForTheDecodedValue v, ← patternStandsForTheDecodedValue w, h]

/-- A shift moves zeros into the bits below it. -/
theorem shiftLeft_extractLsb'_zero {w n len : Nat} (x : BitVec w) (h : len ≤ n) :
    (x <<< n).extractLsb' 0 len = 0#len := by
  refine BitVec.eq_of_getLsbD_eq fun i hi => ?_
  simp [show i < n by omega]

/-- A fraction widened and shifted stands above the shift unchanged. -/
theorem nrmFraction_extractLsb' (frac : Frac) : (frac.setWidth 52 <<< 29).extractLsb' 29 23 = frac := by
  refine BitVec.eq_of_getLsbD_eq fun i hi => ?_
  simp [hi, show 29 + i < 52 by omega]

/-- Settles O39: the zero case has zero fields. -/
theorem zeroPattern : Obligations.ZeroPattern := fun sg s =>
  ⟨decode_res_wordOf_zero sg, _, _, rfl, s.setCode_code _, codeOf_sign .., codeOf_expo .., codeOf_frac ..⟩

/-- Settles O40: the index of the leading 1 is the binary logarithm of the fraction. -/
theorem subnormalPattern : Obligations.SubnormalPattern := by
  intro sg frac s hfrac
  refine ⟨decode_res_wordOf_of_frac_ne_zero sg hfrac, _, _, msbIndex frac, rfl, s.setCode_code _, msbIndex_le hfrac,
    two_pow_msbIndex_le hfrac, lt_two_pow_msbIndex frac, codeOf_sign .., ?_, ?_⟩
  · rw [codeSub_eq, codeOf_expo, subExpo_toNat hfrac]
  · rw [codeSub_eq, codeOf_frac, subFraction_toNat hfrac]

/-- Settles O41: the exponent field rebiased, and the fraction shifted to its place. -/
theorem normalPattern : Obligations.NormalPattern := by
  intro sg e frac s he
  refine ⟨decode_res_wordOf_of_expo_ne_zero sg frac he, _, _, rfl, s.setCode_code _, codeOf_sign .., ?_, ?_, ?_⟩
  · rw [codeNrm_eq, codeOf_expo, nrmExpo_toNat]
  · rw [codeNrm_eq, codeOf_extractLsb'_of_le _ _ _ (by decide), nrmFraction_extractLsb']
  · rw [codeNrm_eq, codeOf_extractLsb'_of_le _ _ _ (by decide), shiftLeft_extractLsb'_zero _ le_rfl]

/-- Settles O43: each pattern has the reading of its word only; the fields are those of the three cases. -/
theorem patternsAreDistinctAndNeverSpecial : Obligations.PatternsAreDistinctAndNeverSpecial := by
  refine ⟨fun v w => enc64_injective, fun w => ?_⟩
  induction w using word_cases with
  | zero s =>
    rw [enc64_wordOf_zero, codeZero_eq, codeOf_extractLsb'_of_le _ _ _ (by decide)]
    exact ⟨BitVec.extractLsb'_zero, .inl ⟨codeOf_expo .., codeOf_frac ..⟩⟩
  | sub s frac hfrac =>
    have hk := msbIndex_le hfrac
    rw [enc64_wordOf_of_frac_ne_zero s hfrac, codeSub_eq, codeOf_extractLsb'_of_le _ _ _ (by decide),
      codeOf_expo, subExpo_toNat hfrac]
    exact ⟨shiftLeft_extractLsb'_zero _ (by omega), .inr (by omega)⟩
  | nrm s e frac he =>
    have hpos := toNat_ne_zero he
    have hlt := e.isLt
    rw [enc64_wordOf_of_expo_ne_zero s frac he, codeNrm_eq, codeOf_extractLsb'_of_le _ _ _ (by decide),
      codeOf_expo, nrmExpo_toNat]
    exact ⟨shiftLeft_extractLsb'_zero _ le_rfl, .inr (by omega)⟩

end Sys2Proof.Machine

/-!
The invariant (10_state.md sections 4 and 9): an evaluated field is right for the inputs, a right field's result and
pins are the evaluated ones, and every step keeps the invariant.
-/
namespace Sys2Proof.Machine

/-- The named values of a field fit together, its window's bytes among them. -/
theorem fieldWires_ok (k : FieldId) (inp : Inputs) : WiresOk (fieldWires k inp) :=
  { recon_ok (memRead inp (windowBase k)) with
    bytes := (congrArg BitVec.toNat (recon_bits _)).trans (memRead_toNat inp (windowBase k)) }

/-- Named values that fit together give the decoded value of their word (R75). -/
theorem WiresOk.f_eq {w : Wires} (h : WiresOk w) : w.f = b2f w.bits := by
  have hbits : w.bits = wordOf w.s w.e w.frac := BitVec.eq_of_toNat_eq (h.pattern.trans (wordOf_toNat ..).symm)
  have hm : (recon w.bits).m.toNat = w.m.toNat := by
    rw [(recon_ok w.bits).mantissa, h.mantissa, recon_e, recon_frac, hbits, expoOf_wordOf, fracOf_wordOf]
  rw [h.value, b2f_eq_mul_zpow, hm, recon_x, h.exponent, hbits, signOf_wordOf, expoOf_wordOf]

/-- An evaluated field is right for the inputs it was evaluated on. -/
theorem fieldOut_ok (k : FieldId) (inp : Inputs) : FieldOk k inp (fieldOut k inp) := by
  by_cases h : hasField k inp = true
  · rw [fieldOut_of_hasField h]
    refine ⟨iff_of_true rfl ((hasField_iff k inp).1 h), rfl, rfl, fun hv => Bool.noConfusion hv, ?_, ?_⟩
    · rintro _ ⟨⟩
      exact ⟨fieldWires_ok k inp, (congrArg BitVec.toNat (recon_bits _)).trans (memRead_toNat inp (windowBase k))⟩
    · rintro _ ⟨⟩
      exact ⟨rfl, patternStandsForTheDecodedValue _⟩
  · rw [fieldOut_of_not_hasField h]
    exact ⟨iff_of_false (by decide) (mt (hasField_iff k inp).2 h), rfl, rfl, fun _ => rfl, (fun _ hw => nomatch hw),
      (fun _ hw => nomatch hw)⟩

section RightField

variable {k : FieldId} {inp : Inputs} {o : FieldOut} (h : FieldOk k inp o)
include h

theorem FieldOk.valid_eq : o.valid = (fieldOut k inp).valid :=
  Bool.eq_iff_iff.mpr (h.valid.trans (fieldOut_ok k inp).valid.symm)

/-- What a right field shows when it is present: the decoded value of its window, and a pattern for it. -/
theorem FieldOk.shown_of_valid (hv : o.valid = true) : o.result = some (b2f (memRead inp (windowBase k))) ∧
    readBinary64 o.value = some (b2f (memRead inp (windowBase k))) := by
  obtain ⟨w, hw⟩ := Option.isSome_iff_exists.mp (h.named.trans hv)
  obtain ⟨hok, hwindow⟩ := h.wires w hw
  have hbits : w.bits = memRead inp (windowBase k) := BitVec.eq_of_toNat_eq (hwindow.trans (memRead_toNat ..).symm)
  rw [← hbits, ← hok.f_eq]
  exact h.shown w hw

theorem FieldOk.result_eq_none (hv : o.valid = false) : o.result = none :=
  Option.isSome_eq_false_iff.mp (h.key.trans hv) |> Option.isNone_iff_eq_none.mp

/-- The result and the pattern of a right field are those of the field evaluated anew: a reading has one pattern. -/
theorem FieldOk.result_value_eq : o.result = (fieldOut k inp).result ∧ o.value = (fieldOut k inp).value := by
  have hnew := fieldOut_ok k inp
  have hvalid := h.valid_eq
  cases hv : o.valid with
  | true =>
    obtain ⟨hresult, hread⟩ := h.shown_of_valid hv
    obtain ⟨hresult', hread'⟩ := hnew.shown_of_valid (hvalid ▸ hv)
    exact ⟨hresult.trans hresult'.symm, readBinary64_injective hread hread'⟩
  | false =>
    have hv' := hvalid.symm.trans hv
    exact ⟨(h.result_eq_none hv).trans (hnew.result_eq_none hv').symm, (h.absent hv).trans (hnew.absent hv').symm⟩

end RightField

/-- Settles O58: with nothing asked the invocation on the present inputs is evaluated again, and a good state's fields
already show its results and pins. -/
theorem outputsHoldWhileInputsDo : Obligations.OutputsHoldWhileInputsDo := by
  intro s hs hqueue
  have hhas : s.invoked.has = s.has := funext fun k => (s.invoked_has k).trans (hs.fields k).valid_eq.symm
  have hvalue : s.invoked.value = s.value := funext fun k =>
    (congrArg FieldOut.value (s.invoked_get k)).trans (hs.fields k).result_value_eq.2.symm
  refine ⟨s.invoked, step_of_empty hqueue, rfl, hqueue, rfl, ?_, fun k => ?_⟩
  · rw [State.pins, State.pins, hhas, hvalue]
  · exact (s.invoked_result k).trans (hs.fields k).result_value_eq.1.symm

/-- An invocation makes every field right, whatever the fields were before. -/
theorem inv_invoked {s : State} (payload : s.inputs.payload.wf = true) (queue : ∀ r ∈ s.queue, r.wf = true)
    (recon : ∀ w, s.unit.recon = some w → WiresOk w)
    (code : ∀ c, s.unit.code = some c → (readBinary64 c).isSome = true) : Inv s.invoked where
  payload := payload
  queue := queue
  fields k := by
    rw [State.invoked_get]
    exact fieldOut_ok k s.inputs
  recon := recon
  code := code

section GoodState

variable {s : State} (h : Inv s)
include h

theorem Inv.setQueue_of_cons {r : Request} {q : List Request} (hqueue : s.queue = r :: q) : Inv (s.setQueue q) :=
  { h with queue := fun r' hr' => h.queue r' (hqueue ▸ List.mem_cons_of_mem r hr') }

theorem Inv.extract (k : FieldId) : Inv (s.extract k) :=
  { h with
    fields := fun j => by
      by_cases hj : j = k
      · rw [hj, State.extract_get_same, State.extract_inputs]
        exact fieldOut_ok k s.inputs
      · rw [State.extract_get_ne s hj]
        exact h.fields j }

theorem Inv.evalSingle (sel : Selector) : Inv (s.evalSingle sel) := by
  cases sel with
  | port p => exact inv_invoked h.payload h.queue h.recon h.code
  | pay k => exact h.extract k
  | w32 w => exact { h with recon := fun _ hw => Option.some.inj hw ▸ recon_ok w }
  | res w =>
    refine { h with code := fun _ hc => ?_ }
    rw [← Option.some.inj hc, patternStandsForTheDecodedValue w, Option.isSome_some]

end GoodState

/-- Settles O49: one case for each kind of request; each evaluates some fields anew or writes one lone output. -/
theorem stepKeepsTheInvariant : Obligations.StepKeepsTheInvariant := by
  intro s t hs hstep
  obtain ⟨-, rfl⟩ | ⟨inp, q, hqueue, rfl⟩ | ⟨sel, q, hqueue, rfl⟩ := step_cases hstep
  · exact inv_invoked hs.payload hs.queue hs.recon hs.code
  · have hinp : inp.payload.wf = true := hs.queue (.invoke inp) (hqueue ▸ List.mem_cons_self)
    exact inv_invoked hinp (hs.setQueue_of_cons hqueue).queue hs.recon hs.code
  · exact (hs.setQueue_of_cons hqueue).evalSingle sel

/-- Settles O48: after reset the fields are as an invocation on the inputs leaves them. -/
theorem resetMeetsTheInvariant : Obligations.ResetMeetsTheInvariant := by
  have hreset : State.reset = State.reset.invoked := rfl
  rw [Obligations.ResetMeetsTheInvariant, hreset]
  exact inv_invoked rfl (fun _ hr => nomatch hr) (fun _ hw => nomatch hw) (fun _ hc => nomatch hc)

/-- Settles O47: port 0 is not 1, so every field of the inputs after reset is absent. -/
theorem resetState : Obligations.ResetState := by
  refine ⟨rfl, rfl, fun k => ?_, rfl, rfl⟩
  have habsent : State.reset.fields.get k = .absent := State.reset.clearFields_get k
  rw [State.result, State.has, State.value, habsent, fieldOut_of_port_ne (by decide)]
  exact ⟨rfl, rfl, rfl, rfl⟩

theorem fieldOut_valid_eq_hasField (k : FieldId) (inp : Inputs) : (fieldOut k inp).valid = hasField k inp := by
  cases h : hasField k inp with
  | true => rw [fieldOut_of_hasField h]
  | false => rw [fieldOut_of_not_hasField (Bool.eq_false_iff.mp h), FieldOut.absent]

theorem fieldOut_value (k : FieldId) (inp : Inputs) :
    (fieldOut k inp).value = if hasField k inp then enc64 (memRead inp (windowBase k)) else 0 := by
  rw [fieldOut]
  split
  · rfl
  · rfl

/-- Settles O50: a good state's value pins are those of its inputs, a pattern of `ENC64` or all zero. -/
theorem goodStatesShowOrdinaryNumbers : Obligations.GoodStatesShowOrdinaryNumbers := by
  intro s k hs
  have hfield := hs.fields k
  refine ⟨?expo, ?frac, fun hv => ?shown, fun hv => ⟨hfield.absent hv, hfield.result_eq_none hv⟩⟩
  case shown =>
    obtain ⟨hresult, hread⟩ := hfield.shown_of_valid hv
    rw [State.value, State.result, hresult]
    exact ⟨hread, rfl⟩
  all_goals
    rw [State.value, hfield.result_value_eq.2, fieldOut_value]
    split
  case expo.isTrue =>
    obtain ⟨-, ⟨hexpo, -⟩ | ⟨-, hexpo⟩⟩ := patternsAreDistinctAndNeverSpecial.2 (memRead s.inputs (windowBase k))
    · rw [hexpo]
      decide
    · omega
  case expo.isFalse => decide
  case frac.isTrue =>
    obtain ⟨-, ⟨-, hfrac⟩ | ⟨hexpo, -⟩⟩ := patternsAreDistinctAndNeverSpecial.2 (memRead s.inputs (windowBase k))
    · exact fun _ => hfrac
    · intro hzero
      rw [hzero] at hexpo
      exact absurd hexpo (by decide)
  case frac.isFalse => decide

theorem State.extract_value_same (s : State) (k : FieldId) : (s.extract k).value k = (fieldOut k s.inputs).value := by
  rw [State.value, State.extract_get_same]

/-- Settles O31: the gate is the flag's condition, and the pattern is `ENC64` of the word that `B2F` decodes. -/
theorem extractionDrivesTheValuePins : Obligations.ExtractionDrivesTheValuePins := by
  intro s k
  have hfield := fieldOut_ok k s.inputs
  refine ⟨_, exec_decodePay s k, ?_⟩
  rw [State.extract_has_same, State.extract_result_same, State.extract_value_same]
  refine ⟨hfield.valid, fun hv => ?_, fun hv => ⟨hfield.absent hv, hfield.result_eq_none hv⟩⟩
  obtain ⟨hresult, hread⟩ := hfield.shown_of_valid hv
  rw [fieldOut_valid_eq_hasField] at hv
  exact ⟨(fieldOut_value k s.inputs).trans (if_pos hv), hread.trans hresult.symm, hresult ▸ rfl⟩

end Sys2Proof.Machine

/-!
The bytes of a window and the lanes of the pins (20_memory.md).
-/
namespace Sys2Proof.Machine

theorem byteOfWord_memRead (inp : Inputs) (a : Nat) {j : Nat} (h : j < 4) :
    byteOfWord (memRead inp a) j = payByte inp (a + j) := by
  have h0 := (payByte inp a).isLt
  have h1 := (payByte inp (a + 1)).isLt
  have h2 := (payByte inp (a + 2)).isLt
  have h3 := (payByte inp (a + 3)).isLt
  apply BitVec.eq_of_toNat_eq
  rw [byteOfWord_toNat, memRead_toNat, windowNat]
  match j, h with
  | 0, _ =>
    simp only [Nat.add_zero]
    omega
  | 1, _ | 2, _ | 3, _ => omega

/-- Settles O11: the effective address of byte `j` is the window's base plus `j`. -/
theorem wordBytesArePayloadBytes : Obligations.WordBytesArePayloadBytes := fun inp k _ hj =>
  byteOfWord_memRead inp (windowBase k) hj

theorem payByte_ofPins {lenW portW : Nat} (p : PinsIn lenW portW) (i : Nat) :
    payByte (Inputs.ofPins p) i = maskedLane p i :=
  if_congr Iff.rfl (Memory.read_ofBytes _ i) rfl

theorem maskedLane_of_lt {lenW portW : Nat} (p : PinsIn lenW portW) {i : Nat} (h : i < 12) :
    maskedLane p i = if i < p.lenI.toNat then p.data[i] else 0x00#8 := by
  have hlane : p.data.toList.getD i 0 = p.data[i] := by
    rw [List.getD_eq_getElem _ _ (by simpa using h), Vector.getElem_toList]
  rw [maskedLane, hlane]
  rfl

/-- Settles O12: the mask of a byte read is the mask of the lane. -/
theorem lanesAtOrPastTheLengthAreMasked : Obligations.LanesAtOrPastTheLengthAreMasked := fun _ _ p i h =>
  (payByte_ofPins p i).trans (maskedLane_of_lt p h)

end Sys2Proof.Machine

/-!
What reaches the outputs (20_memory.md section 4, 41_field_extraction.md section 4), and the pins as another way to
present the inputs (10_state.md section 9, 42_result_output.md section 4).
-/
namespace Sys2Proof.Machine

/-- The outputs depend on the port, on port 1 on the gates, and from length 4 on the bytes below 12. -/
theorem fieldOut_eq_of_agree {in₁ in₂ : Inputs} (hport : in₁.port = in₂.port)
    (hlen : in₁.port = 1 → ∀ k, firstLen k ≤ in₁.len ↔ firstLen k ≤ in₂.len)
    (hbytes : in₁.port = 1 → 4 ≤ in₁.len → ∀ i, i < 12 → payByte in₁ i = payByte in₂ i) (k : FieldId) :
    fieldOut k in₁ = fieldOut k in₂ := by
  by_cases hone : in₁.port = 1
  · by_cases hgate : firstLen k ≤ in₁.len
    · have h₁ : hasField k in₁ = true := (hasField_iff k in₁).2 ⟨hone, hgate⟩
      have h₂ : hasField k in₂ = true := (hasField_iff k in₂).2 ⟨hport ▸ hone, (hlen hone k).1 hgate⟩
      exact fieldOut_congr (h₁.trans h₂.symm) fun j hj =>
        hbytes hone ((four_le_firstLen k).trans hgate) _ (byteAddress_lt_twelve k hj)
    · rw [fieldOut_of_len_lt (not_le.mp hgate), fieldOut_of_len_lt (not_le.mp (mt (hlen hone k).2 hgate))]
  · rw [fieldOut_of_port_ne hone, fieldOut_of_port_ne (hport ▸ hone)]

/-- Two invocations whose inputs give equal fields end in equal outputs, whatever the states before. -/
theorem exists_steps_fields_eq {s₁ s₂ : State} {in₁ in₂ : Inputs} {q₁ q₂ : List Request}
    (h₁ : s₁.queue = .invoke in₁ :: q₁) (h₂ : s₂.queue = .invoke in₂ :: q₂)
    (h : ∀ k, fieldOut k in₁ = fieldOut k in₂) :
    ∃ t₁ t₂, step s₁ = .next t₁ ∧ step s₂ = .next t₂ ∧ t₁.fields = t₂.fields := by
  obtain ⟨t₁, hstep₁, -, hfields₁⟩ := exists_step_fields_of_invoke h₁
  obtain ⟨t₂, hstep₂, -, hfields₂⟩ := exists_step_fields_of_invoke h₂
  exact ⟨t₁, t₂, hstep₁, hstep₂, by rw [hfields₁, hfields₂, funext h]⟩

/-- Settles O13: bytes at or past the length are masked, and no window reaches index 12. -/
theorem onlyTheSelectedBytesReachTheOutputs : Obligations.OnlyTheSelectedBytesReachTheOutputs := by
  intro s₁ s₂ in₁ in₂ q₁ q₂ h₁ h₂ hport hlen hbytes
  refine exists_steps_fields_eq h₁ h₂ (fieldOut_eq_of_agree hport (fun hone k => by rw [hlen hone]) ?_)
  intro hone hfour i hi
  rcases lt_or_ge i in₁.len with hlt | hge
  · rw [payByte_of_lt_len _ hlt, payByte_of_lt_len _ (hlen hone ▸ hlt), hbytes hone hfour i hi hlt]
  · rw [payByte_of_len_le _ hge, payByte_of_len_le _ (hlen hone ▸ hge)]

/-- Settles O14: at 12 bytes every gate is open already, and no window reaches index 12. -/
theorem longPayloadsActAsTwelveBytes : Obligations.LongPayloadsActAsTwelveBytes := by
  intro s bytes port hlen
  have hgate (k : FieldId) : firstLen k ≤ 12 := by cases k <;> decide
  have htake : (bytes.take 12).length = 12 := List.length_take_of_le hlen
  refine exists_steps_fields_eq (State.setQueue_queue ..) (State.setQueue_queue ..) (fieldOut_eq_of_agree rfl ?_ ?_)
  · exact fun _ k => iff_of_true ((hgate k).trans hlen) ((hgate k).trans_eq htake.symm)
  · intro _ _ i hi
    rw [payByte_ofBytes, payByte_ofBytes, List.getD_eq_getElem?_getD, List.getD_eq_getElem?_getD,
      List.getElem?_take_of_lt hi]

/-! ### The pins -/

theorem hasField_ofPins {lenW portW : Nat} (hportW : 1 ≤ portW) (p : PinsIn lenW portW) (k : FieldId) :
    hasField k (Inputs.ofPins p) = decide (p.portI = 1#portW ∧ firstLen k ≤ p.lenI.toNat) := by
  rw [Bool.eq_iff_iff, hasField_iff, decide_eq_true_eq, ← portPins_eq_one_iff hportW]
  rfl

theorem memRead_ofPins {lenW portW : Nat} (p : PinsIn lenW portW) (k : FieldId) :
    memRead (Inputs.ofPins p) (windowBase k) = pinWord p k := by
  simp only [memRead, pinWord, payByte_ofPins]

/-- Settles O52: the gate is the port test over all pins and the field's first length, the word that of the masked
lanes. -/
theorem invocationMeetsThePinFunction : Obligations.InvocationMeetsThePinFunction := by
  intro lenW portW hlegal p s q hqueue
  obtain ⟨t, hstep, -, hfields⟩ := exists_step_fields_of_invoke hqueue
  have hhas : t.has = fun k => decide (p.portI = 1#portW ∧ firstLen k ≤ p.lenI.toNat) := funext fun k => by
    rw [State.has, hfields, PerField.get_ofFn, fieldOut_valid_eq_hasField, hasField_ofPins hlegal.2]
  have hvalue : t.value = fun k =>
      if decide (p.portI = 1#portW ∧ firstLen k ≤ p.lenI.toNat) then enc64 (pinWord p k) else 0 := funext fun k => by
    rw [State.value, hfields, PerField.get_ofFn, fieldOut_value, hasField_ofPins hlegal.2, memRead_ofPins]
  exact ⟨t, hstep, by rw [State.pins, hhas, hvalue, pinFunction]⟩

/-- Pins and a payload of the same length that agree below it and below 12 give the same fields. -/
theorem fieldOut_ofPins_eq_ofBytes {lenW portW : Nat} {p : PinsIn lenW portW} {bytes : List Byte}
    (hlen : bytes.length = p.lenI.toNat)
    (hlanes : ∀ (i : Nat) (h : i < 12), i < p.lenI.toNat → bytes.getD i 0 = p.data[i]) (k : FieldId) :
    fieldOut k (Inputs.ofPins p) = fieldOut k (Inputs.ofBytes bytes (p.portI.toNat : Int)) := by
  have hgate (k : FieldId) : firstLen k ≤ p.lenI.toNat ↔ firstLen k ≤ bytes.length := by rw [hlen]
  refine fieldOut_eq_of_agree (in₁ := Inputs.ofPins p) (in₂ := Inputs.ofBytes bytes p.portI.toNat) rfl
    (fun _ => hgate) (fun _ _ i hi => ?_) k
  rw [payByte_ofPins, maskedLane_of_lt p hi, payByte_ofBytes]
  split
  · exact (hlanes i hi ‹_›).symm
  · exact (List.getD_eq_default _ _ (by omega)).symm

/-- Settles O53: the lanes below the length are the payload's bytes, and no window reaches index 12. -/
theorem pinLevelRefinesTheAbstractLevel : Obligations.PinLevelRefinesTheAbstractLevel :=
  fun _ _ _ _ _ _ hlen hlanes =>
    exists_steps_fields_eq (State.setQueue_queue ..) (State.setQueue_queue ..) (fieldOut_ofPins_eq_ofBytes hlen hlanes)

/-- The pins that present a payload and a port, where they fit the widths. -/
def pinsPresenting (lenW portW : Nat) (bytes : List Byte) (port : Int) : PinsIn lenW portW where
  lenI := BitVec.ofNat lenW bytes.length
  data := Vector.ofFn fun i => bytes.getD i 0
  portI := BitVec.ofNat portW port.toNat

section PinsPresenting

variable {lenW portW : Nat} {bytes : List Byte} {port : Int}

theorem pinsPresenting_lenI (h : bytes.length ≤ Config.maxLen lenW) :
    (pinsPresenting lenW portW bytes port).lenI.toNat = bytes.length := by
  have hpow : 0 < 2 ^ lenW := by positivity
  rw [Config.maxLen] at h
  rw [pinsPresenting, BitVec.toNat_ofNat, Nat.mod_eq_of_lt (by omega)]

theorem pinsPresenting_portI (h0 : 0 ≤ port) (h : port < 2 ^ portW) :
    ((pinsPresenting lenW portW bytes port).portI.toNat : Int) = port := by
  have hlt : port.toNat < 2 ^ portW := (Int.toNat_lt h0).mpr (by exact_mod_cast h)
  rw [pinsPresenting, BitVec.toNat_ofNat, Nat.mod_eq_of_lt hlt, Int.toNat_of_nonneg h0]

theorem pinsPresenting_data {i : Nat} (h : i < 12) :
    bytes.getD i 0 = (pinsPresenting lenW portW bytes port).data[i] := by
  simp only [pinsPresenting, Vector.getElem_ofFn]

end PinsPresenting

/-- Settles O54: the pins that carry the length, the port and the first 12 bytes. -/
theorem presentableInvocationsHavePins : Obligations.PresentableInvocationsHavePins := by
  intro lenW portW _ bytes port s hlen h0 hport
  have hlenI := pinsPresenting_lenI (portW := portW) (port := port) hlen
  have hportI := pinsPresenting_portI (lenW := lenW) (bytes := bytes) h0 hport
  have hfields := fieldOut_ofPins_eq_ofBytes hlenI.symm fun _ hi _ => pinsPresenting_data hi
  rw [hportI] at hfields
  obtain ⟨t, u, hsteps⟩ := exists_steps_fields_eq (State.setQueue_queue s _) (State.setQueue_queue s _) hfields
  exact ⟨_, t, u, hlenI, hportI, hsteps⟩

end Sys2Proof.Machine

/-!
Extractions and dispatch (41_field_extraction.md): absence, frames, order, short windows and presence.
-/
namespace Sys2Proof.Machine

/-- Settles O29: off port 1 the evaluated field is the absent one. -/
theorem extractionOffPortOneIsAbsent : Obligations.ExtractionOffPortOneIsAbsent := by
  intro s k hport
  refine ⟨_, exec_decodePay s k, ?_⟩
  rw [State.extract_result_same, State.extract_has_same, State.extract_value_same, fieldOut_of_port_ne hport]
  exact ⟨rfl, rfl, rfl⟩

/-- Settles O30: an extraction sets one entry of the fields. -/
theorem extractionFrame : Obligations.ExtractionFrame := fun s k =>
  ⟨_, exec_decodePay s k, fun _ hj => State.extract_get_ne s hj, s.extract_inputs k, s.extract_queue k,
    s.extract_unit k, fun _ => rfl⟩

theorem State.extract_comm (s : State) (j k : FieldId) : (s.extract j).extract k = (s.extract k).extract j := by
  by_cases h : j = k
  · rw [h]
  · exact congrArg (fun fields => { s with fields := fields }) (PerField.set_comm _ _ _ h)

/-- Settles O34: the entries set are of different fields, or the two extractions are one. -/
theorem extractionsCommute : Obligations.ExtractionsCommute := fun s j k =>
  ⟨_, _, _, exec_decodePay s j, exec_decodePay s k, exec_decodePay _ k,
    (exec_decodePay _ j).trans (congrArg Host.Outcome.next (s.extract_comm k j))⟩

/-- A word below `2^24` has an exponent field of 0 or 1, where one unit of the word is one unit of `2^-149`. -/
theorem b2f_of_lt {w : Word} (h : w.toNat < 2 ^ 24) :
    b2f w = { s := 0, mag := (w.toNat : Rat) * 2 ^ (-149 : Int) } := by
  have hs : signOf w = 0 := BitVec.eq_of_toNat_eq (by rw [signOf_toNat, Nat.div_eq_of_lt (by omega)]; rfl)
  have hlow : lowBits w = w.toNat := by rw [lowBits_eq, Nat.mod_eq_of_lt (by omega)]
  have hunits : magUnits 23 w.toNat = 2 * w.toNat := by
    rcases lt_or_ge w.toNat (2 ^ 23) with hlt | hge
    · exact magUnits_of_lt hlt
    · rw [magUnits_of_le hge, show w.toNat / 2 ^ 23 = 1 by omega]
      omega
  have hscale : (2 : Rat) ^ (-149 : Int) = 2 * 2 ^ (-150 : Int) := by norm_num
  rw [b2f_eq_magUnits, hs, hlow, hunits, hscale, Nat.cast_mul, Nat.cast_two]
  congr 1
  ring

/-- A window with `r` real bytes is a number of `8 * r` bits. -/
theorem listWord_lt {bytes : List Byte} {a r : Nat} (hpos : 1 ≤ r) (hr : r ≤ 3) (hlen : bytes.length = a + r) :
    listWord bytes a < 2 ^ (8 * r) := by
  have hmissing (j : Nat) (hj : r ≤ j) : (bytes.getD (a + j) 0).toNat = 0 := by
    rw [List.getD_eq_default _ _ (by omega)]
    rfl
  have h0 := (bytes.getD a 0).isLt
  have h1 := (bytes.getD (a + 1) 0).isLt
  have h2 := (bytes.getD (a + 2) 0).isLt
  have h3 := hmissing 3 hr
  rw [listWord, h3]
  interval_cases r
  · have hb1 := hmissing 1 le_rfl
    have hb2 := hmissing 2 (by decide)
    omega
  · have hb2 := hmissing 2 le_rfl
    omega
  · omega

/-- Settles O33: the missing bytes are zero, so the word is below `2^24`. -/
theorem paddedWindowValue : Obligations.PaddedWindowValue := by
  intro s bytes k r hk hr hr3 hlen
  have hlt := listWord_lt hr hr3 hlen
  have hlt24 : listWord bytes (windowBase k) < 2 ^ 24 :=
    hlt.trans_le (Nat.pow_le_pow_right two_pos (by omega))
  have hgate : firstLen k ≤ bytes.length := by
    have hfirst : firstLen k = windowBase k + 1 := by
      cases k with
      | energyIn => exact absurd rfl hk
      | energyOut | power => rfl
    omega
  have hword := memRead_ofBytes_toNat bytes 1 (windowBase k)
  refine ⟨_, step_of_invoke (State.setQueue_queue ..), hlt, ?_, ?_⟩
  · rw [State.invoked_result, State.presentInputs_inputs, fieldOut_result_of_port_one rfl, ← hword,
      ← b2f_of_lt (hword ▸ hlt24)]
    exact if_pos hgate
  · calc (listWord bytes (windowBase k) : Rat) * 2 ^ (-149 : Int) < 2 ^ 24 * 2 ^ (-149 : Int) := by
          gcongr
          exact_mod_cast hlt24
      _ = 2 ^ (-125 : Int) := by norm_num

/-- What a port operation does: all fields computed anew, or all cleared. -/
theorem exec_decode_port_cases (s : State) (p : Int) : ∃ t, exec (decode (.port p)) s = .next t ∧
    (t = s.invoked ∨ t = s.clearFields) := by
  by_cases hp : p = 1
  · rw [hp]
    exact ⟨_, execDecP1_eq s, .inl rfl⟩
  · rw [decode, decodePort_of_ne hp]
    exact ⟨_, rfl, .inr rfl⟩

theorem fieldOut_eq_absent_of_result_eq_none {k : FieldId} {inp : Inputs} (h : (fieldOut k inp).result = none) :
    fieldOut k inp = .absent := by
  apply fieldOut_of_not_hasField
  rw [← fieldOut_valid_eq_hasField, fieldOut_valid, h]
  decide

/-- Settles O37: the fields are all that is written, each evaluated or absent. -/
theorem dispatchFrame : Obligations.DispatchFrame := by
  intro s p
  obtain ⟨t, hexec, rfl | rfl⟩ := exec_decode_port_cases s p
  · refine ⟨_, hexec, rfl, rfl, rfl, fun _ => rfl, fun k hk => ?_⟩
    rw [State.invoked_result] at hk
    rw [State.invoked_get, fieldOut_eq_absent_of_result_eq_none hk]
  · exact ⟨_, hexec, rfl, rfl, rfl, fun _ => rfl, fun k _ => s.clearFields_get k⟩

theorem mem_extracted_iff (k : FieldId) (inp : Inputs) : k ∈ extracted inp ↔ hasField k inp = true := by
  have hall : k ∈ [FieldId.energyIn, .energyOut, .power] := by cases k <;> decide
  rw [extracted, List.mem_filter]
  exact and_iff_right hall

/-- The three gates open one after the other as the length grows. -/
theorem extracted_cases (inp : Inputs) : extracted inp = [] ∨ extracted inp = [.energyIn] ∨
    extracted inp = [.energyIn, .energyOut] ∨ extracted inp = [.energyIn, .energyOut, .power] := by
  have hfirst : hasField .energyOut inp = true → hasField .energyIn inp = true := by
    simp only [hasField_iff, firstLen]
    omega
  have hsecond : hasField .power inp = true → hasField .energyOut inp = true := by
    simp only [hasField_iff, firstLen]
    omega
  by_cases hin : hasField .energyIn inp = true
  · by_cases hout : hasField .energyOut inp = true
    · by_cases hpower : hasField .power inp = true
      · exact .inr (.inr (.inr (by simp [extracted, hin, hout, hpower])))
      · exact .inr (.inr (.inl (by simp [extracted, hin, hout, hpower])))
    · exact .inr (.inl (by simp [extracted, hin, hout, mt hsecond hout]))
  · have hout := mt hfirst hin
    exact .inl (by simp [extracted, hin, hout, mt hsecond hout])

/-- Settles O38: keys, flags and the `PAY` format's choice are one gate for each field. -/
theorem presenceByPortAndLength : Obligations.PresenceByPortAndLength := by
  intro s inp q hqueue
  refine ⟨_, step_of_invoke hqueue, ?_, ?_, ?_, fun k => ?_, fun k => ?_, extracted_cases inp⟩
  all_goals simp only [State.invoked_has, State.invoked_result, State.presentInputs_inputs]
  · exact (fieldOut_ok .energyIn inp).valid
  · exact (fieldOut_ok .energyOut inp).valid
  · exact (fieldOut_ok .power inp).valid
  · exact (fieldOut_valid k inp).symm
  · rw [mem_extracted_iff, fieldOut_valid_eq_hasField]

end Sys2Proof.Machine

/-!
Steps and runs (70_reset_and_hazards.md): operations evaluated alone, the request a step takes, and runs over requests.
-/
namespace Sys2Proof.Machine

theorem exec_of_format_w32 {i : Instr} (h : i.format = .w32) (s : State) : ∃ w, exec i s = .next (s.setRecon w) := by
  cases i with
  | b2fSub sg frac => exact ⟨_, rfl⟩
  | b2fNrm sg e frac => exact ⟨_, rfl⟩
  | decP1 | decNone | fldEnergyIn | fldEnergyOut | fldPower | enc64Zero | enc64Sub | enc64Nrm => cases h

theorem exec_of_format_res {i : Instr} (h : i.format = .res) (s : State) : ∃ c, exec i s = .next (s.setCode c) := by
  cases i with
  | enc64Zero sg => exact ⟨_, rfl⟩
  | enc64Sub sg frac => exact ⟨_, rfl⟩
  | enc64Nrm sg e frac => exact ⟨_, rfl⟩
  | decP1 | decNone | fldEnergyIn | fldEnergyOut | fldPower | b2fSub | b2fNrm => cases h

/-- Settles O25: a word operation writes the named values, a `RES` operation the pattern. -/
theorem loneOperationsFrame : Obligations.LoneOperationsFrame := by
  refine ⟨fun i s h => ?_, fun i s h => ?_⟩
  · obtain ⟨w, hexec⟩ := exec_of_format_w32 h s
    exact ⟨_, hexec, rfl, rfl, rfl, s.setRecon_code w, fun _ => rfl⟩
  · obtain ⟨c, hexec⟩ := exec_of_format_res h s
    exact ⟨_, hexec, rfl, rfl, rfl, s.setCode_recon c, fun _ => rfl⟩

/-- A word asked alone is evaluated on the state with its request taken. -/
theorem step_eq_exec_of_single_word {s : State} {sel : Selector} {q : List Request}
    (hformat : sel.format = .w32 ∨ sel.format = .res) (h : s.queue = .single sel :: q) :
    step s = exec (decode sel) (s.setQueue q) := by
  cases sel with
  | port p | pay k => simp [Selector.format] at hformat
  | w32 w | res w => simp only [step, fetch, h]

theorem exists_of_map_eq_ok {ε α β : Type} {f : α → β} {x : Except ε α} {y : β} (h : x.map f = .ok y) :
    ∃ a, y = f a := by
  cases x with
  | error e => cases h
  | ok a => exact ⟨a, (Except.ok.inj h).symm⟩

theorem readSelector_format {f : Format} {bs : List Byte} {sel : Selector} (h : readSelector f bs = .ok sel) :
    sel.format = f := by
  cases f with
  | pay => cases h
  | port | w32 | res =>
    obtain ⟨a, rfl⟩ := exists_of_map_eq_ok h
    rfl

/-- Bytes that are read as a selector decode to its operation. -/
theorem decodeBytes_of_readSelector {f : Format} {bs : List Byte} {sel : Selector} (h : readSelector f bs = .ok sel) :
    decodeBytes f bs = .ok (decode sel) := by
  rw [decodeBytes, h]
  rfl

/-- Settles O44: each kind of request is fetched as its selector, with its inputs presented. -/
theorem stepEvaluatesTheDecodedOperation : Obligations.StepEvaluatesTheDecodedOperation := by
  intro s
  have hport (p : Int) (q : List Request) (h : s.queue = .single (.port p) :: q) :
      step s = exec (decode (.port p)) { s with queue := q, inputs := { s.inputs with port := p } } := by
    simp only [step, fetch, h]
    rfl
  refine ⟨fun h => ?empty, fun inp q h => ?invoke, hport, fun bs p i q hread hdecode h => ?byte, fun k q h => ?field,
    fun f bs sel i q hf hread hdecode h => ?word⟩
  case empty => simp only [step, fetch, h]
  case invoke =>
    simp only [step, fetch, h]
    rfl
  case byte =>
    rw [← Except.ok.inj ((decodeBytes_of_readSelector hread).symm.trans hdecode)]
    exact hport p q h
  case field =>
    simp only [step, fetch, h]
    rfl
  case word =>
    rw [← Except.ok.inj ((decodeBytes_of_readSelector hread).symm.trans hdecode)]
    exact step_eq_exec_of_single_word (by rwa [readSelector_format hread]) h

theorem tableSelector_eight (w : Nat) : tableSelector 8 w = some (.port ((w % 256 : Nat) : Int)) :=
  congrArg (fun n : Nat => some (Selector.port (n : Int))) (BitVec.toNat_ofNat w 8)

/-- The word of 32 bits that a table word writes out. -/
def tableWord (w : Nat) : Word :=
  wordOfBytes (BitVec.ofNat 8 w) (BitVec.ofNat 8 (w / 256)) (BitVec.ofNat 8 (w / 65536)) (BitVec.ofNat 8 (w / 16777216))

theorem tableSelector_thirtyTwo (w : Nat) : tableSelector 32 w = some (.w32 (tableWord w)) := rfl

theorem tableSelector_of_ne {nbits : Nat} (h8 : nbits ≠ 8) (h32 : nbits ≠ 32) (w : Nat) :
    tableSelector nbits w = none := by
  rw [tableSelector, if_neg h8, if_neg h32]

theorem State.withFetchWord_of_tableSelector {nbits w : Nat} {sel : Selector} (h : tableSelector nbits w = some sel)
    (s : State) : s.withFetchWord nbits w = s.setQueue (.single sel :: s.queue) := by
  rw [State.withFetchWord, h]

/-- Settles O45: the request placed is the head of the queue, and taking it gives the queue back. -/
theorem placedTableWordIsEvaluatedNext : Obligations.PlacedTableWordIsEvaluatedNext := by
  intro s nbits w
  by_cases h8 : nbits = 8
  · subst h8
    have hsel := tableSelector_eight w
    rw [decodeTableWord, hsel, State.withFetchWord_of_tableSelector hsel]
    refine ⟨iff_of_true rfl (.inl rfl), ?_⟩
    rintro _ ⟨⟩
    exact ⟨fun h => absurd h (by decide), fun _ => rfl⟩
  · by_cases h32 : nbits = 32
    · subst h32
      have hsel := tableSelector_thirtyTwo w
      rw [decodeTableWord, hsel, State.withFetchWord_of_tableSelector hsel]
      refine ⟨iff_of_true rfl (.inr rfl), ?_⟩
      rintro _ ⟨⟩
      exact ⟨fun _ => rfl, fun h => absurd h (by decide)⟩
    · rw [decodeTableWord, tableSelector_of_ne h8 h32]
      exact ⟨iff_of_false (by decide) (not_or.mpr ⟨h8, h32⟩), fun _ h => nomatch h⟩

/-! ### Runs -/

theorem exists_runsTo_of_queue_append {asked rest : List Request} {s : State} (h : s.queue = asked ++ rest) :
    ∃ t, RunsTo asked.length s t ∧ t.queue = rest := by
  induction asked generalizing s with
  | nil => exact ⟨s, runsTo_zero s, h⟩
  | cons r asked ih =>
    obtain ⟨s', hstep, hqueue⟩ := exists_step_of_cons h
    obtain ⟨t, hrun, ht⟩ := ih hqueue
    exact ⟨t, (runsTo_succ hstep).2 hrun, ht⟩

/-- Settles O57: each step takes the request at the head of the queue. -/
theorem runsAnswerEveryRequest : Obligations.RunsAnswerEveryRequest := fun s asked rest =>
  exists_runsTo_of_queue_append (State.setQueue_queue s (asked ++ rest))

/-- Settles O59: the contract of `decode`, on the words of 1.0 and 2.0. -/
theorem workedExamplesOfTheSource : Obligations.WorkedExamplesOfTheSource := by
  have hone : gwValue 0x3F800000 = { s := 0, mag := 1 } := (b2f_eq_gwValue 0x3F800000).symm.trans b2f_example_one
  have htwo : gwValue 0x40000000 = { s := 0, mag := 2 } := (b2f_eq_gwValue 0x40000000).symm.trans b2f_example_two
  have hdecode (bytes : List Byte) (port : Int) :=
    invocationMeetsTheDecodeContract _ bytes port [] (State.setQueue_queue State.reset _)
  obtain ⟨t₂, hstep₂, ht₂, -⟩ := hdecode [] 1
  obtain ⟨t₃, hstep₃, ht₃, -⟩ := hdecode [0x00, 0x00, 0x80, 0x3F] 1
  obtain ⟨t₄, hstep₄, ht₄, -⟩ := hdecode [0x00, 0x00, 0x80, 0x3F, 0x00, 0x00, 0x00, 0x40] 1
  obtain ⟨t₅, hstep₅, ht₅, -⟩ := hdecode [0x00, 0x00, 0x80, 0x3F] 2
  unfold Obligations.WorkedExamplesOfTheSource
  rw [← hone, ← htwo]
  exact ⟨t₂, t₃, t₄, t₅, hstep₂, hstep₃, hstep₄, hstep₅, ht₂, ht₃, ht₄, ht₅⟩

end Sys2Proof.Machine
